-- ==== Sys2Proof/Word.lean ====
section
/-! DEFINITION. The machine word: every word of the state table, every interface register and every command word
has 32 bits (00_scope.md R5, R6). -/

namespace Sys2Proof

/-- A 32-bit word (00_scope.md R7). -/
abbrev Word := BitVec 32

end Sys2Proof
end

