-- ==== Sys2Proof/Syntax.lean ====
section
/-! DEFINITION. The commands of the engine as syntax: one constructor per row of spec/opcode_table.json
(30_encoding.md R51). -/

namespace Sys2Proof

/-- A command of the engine. The 32-bit operand of SEED and LOADPUSH is not part of the command: it is the value of
ARG captured at the CMD write (30_encoding.md R50). -/
inductive Instr where
  /-- NOP (42_table_access.md R84). -/
  | nop
  /-- ADVANCE (41_advance_peek.md R71). -/
  | advance
  /-- PEEKS (41_advance_peek.md R72). -/
  | peeks
  /-- PEEKO (41_advance_peek.md R73). -/
  | peeko
  /-- SEED (40_construction.md R59). -/
  | seed
  /-- LOADPUSH (40_construction.md R67). -/
  | loadpush
  /-- READT j, with `j` the 5-bit IDX field (42_table_access.md R83, 30_encoding.md R48). -/
  | readt (idx : BitVec 5)
deriving DecidableEq, Repr

end Sys2Proof
end

