-- ==== Sys2Proof/WellFormed.lean ====
section
/-! DEFINITION. Which commands have a legal command word (30_encoding.md R48, R52). -/

namespace Sys2Proof

/-- The one field check of the command set: READT's index is 0 to 30 (R48: "`IDX = 31` is illegal"). -/
def Instr.wellFormed : Instr → Bool
  | .nop => true
  | .advance => true
  | .peeks => true
  | .peeko => true
  | .seed => true
  | .loadpush => true
  | .readt idx => decide (idx.toNat ≤ 30)

end Sys2Proof
end

