-- ==== Sys2Proof/Decode.lean ====
section
/-! DEFINITION. The command word (30_encoding.md): its three fields, the decoder, total on every word and refusing
by name, and the encoder, both written from the map of R51. -/

namespace Sys2Proof

/-- `OP = c[3:0]` (R46, R47). -/
def opField (c : Word) : BitVec 4 := c.extractLsb' 0 4

/-- `IDX = c[8:4]` (R46, R48). -/
def idxField (c : Word) : BitVec 5 := c.extractLsb' 4 5

/-- `RSV = c[31:9]` (R46, R49). -/
def rsvField (c : Word) : BitVec 23 := c.extractLsb' 9 23

/-- Why a command word is not legal (R53). The engine reports all four alike, as ILLEGAL_CMD (60_exceptions.md R91). -/
inductive DecodeReject where
  /-- RSV is not 0 (R49). -/
  | reservedBitsSet
  /-- OP is 0x7 to 0xF (R51). -/
  | reservedOperation
  /-- IDX is not 0 on an operation without an index (R48). -/
  | indexOnPlainOperation
  /-- READT with IDX = 31 (R48). -/
  | indexOutOfRange
deriving DecidableEq, Repr

/-- A command without an index: legal only with IDX = 0 (R52). -/
def decodePlain (i : Instr) (c : Word) : Except DecodeReject Instr :=
  if idxField c = 0 then .ok i else .error .indexOnPlainOperation

/-- READT: legal with IDX 0 to 30 (R52). -/
def decodeReadt (c : Word) : Except DecodeReject Instr :=
  if (idxField c).toNat ≤ 30 then .ok (.readt (idxField c)) else .error .indexOutOfRange

/-- The decoder (R52). -/
def decode (c : Word) : Except DecodeReject Instr :=
  if rsvField c ≠ 0 then .error .reservedBitsSet
  else match (opField c).toNat with
    | 0 => decodePlain .nop c
    | 1 => decodePlain .advance c
    | 2 => decodePlain .peeks c
    | 3 => decodePlain .peeko c
    | 4 => decodePlain .seed c
    | 5 => decodePlain .loadpush c
    | 6 => decodeReadt c
    | _ => .error .reservedOperation

/-- The OP code of a command (R51). -/
def Instr.opcode : Instr → BitVec 4
  | .nop => 0
  | .advance => 1
  | .peeks => 2
  | .peeko => 3
  | .seed => 4
  | .loadpush => 5
  | .readt _ => 6

/-- The IDX field of a command: 0 but for READT (R48). -/
def Instr.index : Instr → BitVec 5
  | .nop => 0
  | .advance => 0
  | .peeks => 0
  | .peeko => 0
  | .seed => 0
  | .loadpush => 0
  | .readt idx => idx

/-- The command word of a command: `{RSV = 0, IDX, OP}` (R46, R51). -/
def encode (i : Instr) : Word := (i.index.setWidth 32 <<< 4) ||| i.opcode.setWidth 32

/-- `Legal(c)` as R52 writes it. -/
def legal (c : Word) : Bool :=
  if rsvField c ≠ 0 then false
  else if (opField c).toNat ≤ 5 then idxField c == 0
  else if (opField c).toNat = 6 then decide ((idxField c).toNat ≤ 30)
  else false

/-- The decoder's reading of a table row's word: the whole word is the command (R55: one length of 32 bits). Bits
above `nbits` are 0, and there is no command longer than 32 bits. -/
def decodeTableWord (nbits w : Nat) : Option Instr :=
  if w % 2 ^ nbits < 2 ^ 32 then (decode (BitVec.ofNat 32 (w % 2 ^ nbits))).toOption else none

end Sys2Proof
end

