-- ==== Sys2Proof/Machine/State.lean ====
section
/-! DEFINITION. The state of the machine as plain data, the reasons a step can stop, and the state after reset.
The spec's own state is the tuple `(T, ARG, RESULT, ERR, ECODE, PEND)` of 10_state.md R29. The fields below the
comment line inside `State` are the model's own: the host agent of 20_memory.md R41 and the interleaving of the two
agents (logs 2 and 3). -/

namespace Sys2Proof.Machine

/-- The values of STATUS.ECODE that are ever written (60_exceptions.md R90; codes 6 to 15 are never written). -/
inductive ErrorCode where
  | none | illegalCmd | zeroSeed | notReady | busyViolation | badAccess
deriving DecidableEq, Repr

/-- A pending command `(c, a)`: the command word and the value of ARG at the moment CMD was written (10_state.md R27). -/
structure Pending where
  word : Word
  operand : Word
deriving DecidableEq, Repr

/-- What the host can do (20_memory.md R36, R37, 30_encoding.md R56, 70_reset_and_hazards.md R122). Offsets have the
4 bits of the port `addr` (R123); `n` is the access width in bytes. -/
inductive HostOp where
  /-- `HostRead(off, n)` (R36). -/
  | read (off : BitVec 4) (n : Nat)
  /-- `HostWrite(off, n, v)` (R37). -/
  | write (off : BitVec 4) (n : Nat) (v : Word)
  /-- `POLL`: repeat RD STATUS until bit 0 reads 0 (R56). -/
  | poll
  /-- `RESET`: assert the engine's reset (R109). -/
  | reset
  /-- `MemRead(addr, n)` at an address of the host's address space (00_scope.md R10, R32). -/
  | memRead (addr n : Nat)
  /-- `MemWrite(addr, n, v)` at an address of the host's address space (R10, R32). -/
  | memWrite (addr n : Nat) (v : Word)
deriving DecidableEq, Repr

/-- The machine's state. -/
structure State where
  /-- `T`, oldest word first; its length is SIZE (10_state.md R15 to R17). -/
  table : List Word
  /-- ARG (R19). -/
  arg : Word
  /-- RESULT (R20). -/
  result : Word
  /-- STATUS.ERR (R23). -/
  err : Bool
  /-- STATUS.ECODE (R24). -/
  ecode : ErrorCode
  /-- `PEND` (R27). -/
  pend : Option Pending
  -- The model's own fields (logs 2 and 3).
  /-- What the host has still to do (70_reset_and_hazards.md R121). -/
  program : List HostOp
  /-- The values the host's reads returned, oldest first (R121). -/
  reads : List Word
  /-- For each of the next commands to be issued: how many host operations come before its completion step. -/
  delays : List Nat
  /-- How many commands were issued: the argument of the free value `Config.completionDelay`. -/
  issued : Nat
  /-- How many host operations still come before the pending command's completion step. -/
  wait : Nat
deriving DecidableEq, Repr

/-- Why a step can stop with a fault. The spec's own errors (R90) are not here: an error is a next state with ERR = 1
(log 1). -/
inductive Fault where
  /-- Raised by SEED and LOADPUSH where no command is pending, so that no operand was captured (10_state.md R27). The
  step never raises it: its completion step runs only with a command pending (20_memory.md R42). SAFE (log 12). -/
  | noCapturedOperand
deriving DecidableEq, Repr

/-- Why an instruction can be refused. -/
inductive Refusal where
  /-- Raised by an arm of `exec` whose instruction has no meaning yet. No arm does. SAFE. -/
  | notModelled (mnemonic : String)
deriving DecidableEq, Repr

/-- The machine right after reset: the values of 70_reset_and_hazards.md R110. The five last fields are the model's
own, and their values DESIGN CHOICE (logs 2 and 3). -/
def State.reset : State where
  table := []
  arg := 0
  result := 0
  err := false
  ecode := .none
  pend := none
  program := []
  reads := []
  delays := []
  issued := 0
  wait := 0

end Sys2Proof.Machine
end

