-- ==== Sys2Proof/Machine/Flags.lean ====
section
/-! DEFINITION. The status bits. The engine has no arithmetic flags: its only status bits are those of STATUS
(10_state.md R28, R21). -/

namespace Sys2Proof.Machine

/-- The four bits STATUS.ECODE reads for an error code (60_exceptions.md R90). -/
def ErrorCode.code : ErrorCode → BitVec 4
  | .none => 0
  | .illegalCmd => 1
  | .zeroSeed => 2
  | .notReady => 3
  | .busyViolation => 4
  | .badAccess => 5

/-- `SIZE = |T|` (10_state.md R16). -/
def State.size (s : State) : Nat := s.table.length

/-- `BUSY = (PEND != none)` (R22, R27); also the level output `busy` (60_exceptions.md R99). -/
def State.busy (s : State) : Bool := s.pend.isSome

/-- The level output `err` (60_exceptions.md R99, 70_reset_and_hazards.md R123). -/
def State.errOut (s : State) : Bool := s.err

/-- STATUS: `{19'b0, SIZE[4:0], ECODE[3:0], 2'b0, ERR, BUSY}` (10_state.md R21): SIZE at bits 12:8, ECODE at bits 7:4,
ERR at bit 1, BUSY at bit 0, every other bit 0. -/
def State.statusWord (s : State) : Word :=
  ((BitVec.ofNat 5 s.size).setWidth 32 <<< 8) ||| (s.ecode.code.setWidth 32 <<< 4)
    ||| ((BitVec.ofBool s.err).setWidth 32 <<< 1) ||| (BitVec.ofBool s.busy).setWidth 32

end Sys2Proof.Machine
end

