-- ==== Sys2Proof/Config.lean ====
section
/-! DEFINITION. What is fixed for the machine: the parameters the source document fixes (00_scope.md R5), and the
parameters the spec leaves OPEN (R6, R29), which have no value here: they are constants with no body. -/

namespace Sys2Proof.Config

/-- `NW`, words in the state table (R5). -/
@[simp] abbrev tableWords : Nat := 31

/-- `LAG_S`, the short lag: position -3 (R5). -/
@[simp] abbrev shortLag : Nat := 3

/-- `LAG_L`, the long lag: position -31 (R5). -/
@[simp] abbrev longLag : Nat := 31

/-- `PM_MULT`, the Park–Miller multiplier (R5). -/
@[simp] abbrev pmMultiplier : Int := 16807

/-- `PM_MOD`, the Park–Miller modulus 2^31 − 1 (R5). -/
@[simp] abbrev pmModulus : Int := 2147483647

/-- `EXT`, words appended by the extension step (R5). -/
@[simp] abbrev extensionWords : Nat := 3

/-- `WARMUP`, update steps of the warm-up (R5). -/
@[simp] abbrev warmupSteps : Nat := 310

/-- `OUT_SHIFT`, the right shift of the output shifter (R5). -/
@[simp] abbrev outShift : Nat := 1

/-- The size in bytes of the host register window (20_memory.md R31). -/
@[simp] abbrev windowBytes : Nat := 16

/-- The number of 16-byte units below the window. OPEN (20_memory.md R32, D5): no value is known of it (log 6). -/
opaque baseUnits : Nat

/-- `BASE`, the window's base address: OPEN, 16-byte aligned (R32). -/
def base : Nat := windowBytes * baseUnits

/-- The six latency parameters of 70_reset_and_hazards.md R119. -/
inductive LatencyName where
  | latNop | latAdvance | latPeek | latSeed | latLoadpush | latReadt
deriving DecidableEq, Repr

/-- The clock cycles of a latency beyond its first. OPEN (R119, D21): no value is known of it (log 6). -/
opaque extraCycles : LatencyName → Nat

/-- `LAT_*`, in clock cycles: OPEN, finite, at least 1 (R119). No step reads it (R120). -/
def latency (n : LatencyName) : Nat := extraCycles n + 1

/-- FREE VALUE (R120, U14; log 3): how many host operations come between the issue of the `k`-th command and its
completion step, where the state's own list of delays does not say. The spec allows any finite number. -/
opaque completionDelay : Nat → Nat

end Sys2Proof.Config
end

