-- ==== Sys2Proof/Machine/Operands.lean ====
section
/-! DEFINITION. The operands a command can have and the arithmetic on them: the captured ARG, the positions of the
state table, and the arithmetic primitives of 00_scope.md R7 to R9. -/

namespace Sys2Proof.Machine

/-- The operand of SEED and LOADPUSH: ARG as captured at the CMD write, used whole (30_encoding.md R50). -/
def State.capturedArg (s : State) : Option Word := s.pend.map Pending.operand

/-- `T(-k)`: the k-th word from the most recent, for `1 <= k <= |T|` (00_scope.md R9). There is no word at any other
position (10_state.md R17). -/
def position (t : List Word) (k : Nat) : Option Word :=
  if 1 ≤ k ∧ k ≤ t.length then t[t.length - k]? else none

/-- READT's position: logical index `j` of a full table is position `-(31 − j)` (42_table_access.md R83). -/
def indexPosition (idx : BitVec 5) : Nat := Config.tableWords - idx.toNat

/-- `add32` (00_scope.md R8): the sum modulo 2^32, its carry lost (10_state.md R28). -/
def add32 (a b : Word) : Word := a + b

/-- `s32`: the signed (two's-complement) reading of a word (R7). -/
def s32 (v : Word) : Int := v.toInt

/-- `rem`: the truncating remainder, whose sign is the dividend's (R8). -/
def rem (a m : Int) : Int := Int.tmod a m

/-- The output shifter `out(s) = s >> 1`, zero-extended to 32 bits (41_advance_peek.md R74). -/
def out (s : Word) : Word := s >>> Config.outShift

/-- Byte lane `k` of a register: bits `[8k+7:8k]`. For documentation only: only whole registers are accessed
(20_memory.md R34). -/
def byteLane (v : Word) (k : Fin 4) : BitVec 8 := v.extractLsb' (8 * k.val) 8

end Sys2Proof.Machine
end

