-- ==== Sys2Proof/Machine/Ops.lean ====
section
/-! DEFINITION. The shared operations: pushing a word into the state table, raising an error, retiring and issuing
commands, reset, and the host's accesses to the register window. -/

namespace Sys2Proof.Machine

/-! ## The state table -/

/-- `Push(w)` (00_scope.md R10): a full table evicts its oldest word, any other grows by one. -/
def push (t : List Word) (w : Word) : List Word :=
  if t.length = Config.tableWords then t.tail ++ [w] else t ++ [w]

/-- `add32(T(-3), T(-31))`, the next word of a full table; none while SIZE is not 31 (41_advance_peek.md R71 to R73). -/
def nextWord (t : List Word) : Option Word :=
  if t.length = Config.tableWords then
    match position t Config.shortLag, position t Config.longLag with
    | some x, some y => some (add32 x y)
    | _, _ => none
  else none

/-- RESULT <- v (10_state.md R20). -/
def State.setResult (s : State) (v : Word) : State := { s with result := v }

/-- T <- t (10_state.md R15). -/
def State.setTable (s : State) (t : List Word) : State := { s with table := t }

/-! ## Errors, retirement, reset -/

/-- `Error(code)` (60_exceptions.md R93), the one way an error is taken: the first error sets ERR and ECODE, a later
one changes neither (R94), the pending command is discarded, and nothing else is written. -/
def State.raiseError (s : State) (code : ErrorCode) : State :=
  if s.err then { s with pend := none } else { s with err := true, ecode := code, pend := none }

/-- `PEND <- none`: the end of a completion step (20_memory.md R42). -/
def State.retire (s : State) : State := { s with pend := none }

/-- Asserting reset (70_reset_and_hazards.md R109 to R111): one atomic step that sets every reset value of R110, at
any time. The host goes on with its program and keeps what it has read (log 9). -/
def State.hostReset (s : State) : State :=
  { State.reset with program := s.program, reads := s.reads, delays := s.delays, issued := s.issued }

/-! ## Issuing a command -/

/-- How many host operations come before the completion of the command issued now: the state's own list says, and
where that is used up the free value does (R42, R120; log 3). -/
def State.nextDelay (s : State) : Nat :=
  match s.delays with
  | d :: _ => d
  | [] => Config.completionDelay s.issued

/-- `PEND <- (c, ARG)` (10_state.md R27): ARG is captured at the CMD write. -/
def State.issue (s : State) (c : Word) : State :=
  { s with
    pend := some ⟨c, s.arg⟩
    wait := s.nextDelay
    delays := s.delays.tail
    issued := s.issued + 1 }

/-! ## The register window -/

/-- The four registers of the window, at offsets 0x0, 0x4, 0x8 and 0xC (20_memory.md R31). -/
inductive WindowReg where
  | cmd | arg | result | status
deriving DecidableEq, Repr

/-- The register an access of `n` bytes at offset `off` reaches; none for a bad access (R35). -/
def windowReg (off : BitVec 4) (n : Nat) : Option WindowReg :=
  if n ≠ 4 ∨ off.toNat % 4 ≠ 0 then none
  else match off.toNat / 4 with
    | 0 => some .cmd
    | 1 => some .arg
    | 2 => some .result
    | _ => some .status

/-- The value a legal read of a register returns (R36). -/
def State.readReg (s : State) : WindowReg → Word
  | .cmd => 0
  | .arg => s.arg
  | .result => s.result
  | .status => s.statusWord

/-- A write to CMD (R37): ignored while halted (60_exceptions.md R94), BUSY_VIOLATION while a command is pending
(R96), otherwise the command is issued. -/
def State.writeCmd (s : State) (v : Word) : State :=
  if s.err then s
  else if s.busy then s.raiseError .busyViolation
  else s.issue v

/-- A legal write of a register (R37): RESULT and STATUS ignore it. -/
def State.writeReg (s : State) (v : Word) : WindowReg → State
  | .cmd => s.writeCmd v
  | .arg => { s with arg := v }
  | .result => s
  | .status => s

/-- `HostRead(off, n)` (R36): the value read, and the state after. -/
def hostRead (off : BitVec 4) (n : Nat) (s : State) : Word × State :=
  match windowReg off n with
  | none => (0, s.raiseError .badAccess)
  | some r => (s.readReg r, s)

/-- `HostWrite(off, n, v)` (R37). -/
def hostWrite (off : BitVec 4) (n : Nat) (v : Word) (s : State) : State :=
  match windowReg off n with
  | none => s.raiseError .badAccess
  | some r => s.writeReg v r

/-- The offset in the window of a host address: there is one iff `BASE <= a < BASE + 16` (R32). -/
def windowOffset (a : Nat) : Option (BitVec 4) :=
  if Config.base ≤ a ∧ a < Config.base + Config.windowBytes then some (BitVec.ofNat 4 (a - Config.base)) else none

/-- `MemRead(addr, n)` is `HostRead(addr − BASE, n)` (00_scope.md R10). An address outside the window is not the
engine's concern (R32), so there is no value and no new state. -/
def memRead (a n : Nat) (s : State) : Option (Word × State) :=
  (windowOffset a).map fun off => hostRead off n s

/-- `MemWrite(addr, n, v)` is `HostWrite(addr − BASE, n, v)` (R10). -/
def memWrite (a n : Nat) (v : Word) (s : State) : Option State :=
  (windowOffset a).map fun off => hostWrite off n v s

/-- A read's value joins the host's observation (70_reset_and_hazards.md R121). -/
def State.record (s : State) (v : Word) : State := { s with reads := s.reads ++ [v] }

/-- The state in which the command word `c` is pending, its operand ARG as it stands, the engine not halted and its
completion step due next: what it takes for the next step to run `c` (20_memory.md R42; log 5). -/
def State.present (s : State) (c : Word) : State :=
  { s with pend := some ⟨c, s.arg⟩, err := false, ecode := .none, wait := 0 }

end Sys2Proof.Machine
end

