-- ==== Sys2Proof/Machine/Construction.lean ====
section
/-! DEFINITION. The construction commands SEED and LOADPUSH (40_construction.md). -/

namespace Sys2Proof.Machine

/-- One Park–Miller step (R60): the truncating remainder of the exact product, made non-negative. -/
def pmStep (prev : Word) : Word :=
  let v := rem (Config.pmMultiplier * s32 prev) Config.pmModulus
  BitVec.ofInt 32 (if v < 0 then v + Config.pmModulus else v)

/-- `n` words of the Park–Miller chain that begins with `w`. -/
def pmChain : Nat → Word → List Word
  | 0, _ => []
  | n + 1, w => w :: pmChain n (pmStep w)

/-- Steps 1 and 2 of SEED: `r[0..30]`, with `r[0] = S` (R59, R60). -/
def seedWords (seed : Word) : List Word := pmChain Config.tableWords seed

/-- Step 3: push the words `r[0], r[1], r[2]` of the expansion itself (R62, 90_conflicts.md C1). -/
def extend (r : List Word) : List Word := (r.take Config.extensionWords).foldl push r

/-- The table update of ADVANCE without its RESULT write (R63). -/
def updateTable (t : List Word) : List Word :=
  match nextWord t with
  | some w => push t w
  | none => t

/-- `n` table updates. -/
def updates : Nat → List Word → List Word
  | 0, t => t
  | n + 1, t => updates n (updateTable t)

/-- The table SEED leaves: expansion, extension and the warm-up of 310 updates (R59). Irreducible, so that no tactic
runs the 310 updates by itself. -/
@[irreducible] def seedTable (seed : Word) : List Word := updates Config.warmupSteps (extend (seedWords seed))

/-- SEED (R59): ZERO_SEED for the zero seed, before any write (60_exceptions.md R95); else the table is replaced. -/
def execSeed (s : State) : Host.Outcome State Fault Refusal :=
  match s.capturedArg with
  | none => .fault .noCapturedOperand
  | some a => .next (if a = 0 then s.raiseError .zeroSeed else s.setTable (seedTable a))

/-- LOADPUSH (R67): push the captured operand, at any SIZE. -/
def execLoadpush (s : State) : Host.Outcome State Fault Refusal :=
  match s.capturedArg with
  | none => .fault .noCapturedOperand
  | some a => .next (s.setTable (push s.table a))

end Sys2Proof.Machine
end

