-- ==== Sys2Proof/Machine/TableAccess.lean ====
section
/-! DEFINITION. READT, NOP and the equality of two generators (42_table_access.md). -/

namespace Sys2Proof.Machine

/-- NOP (R84): no write. -/
def execNop (s : State) : Host.Outcome State Fault Refusal := .next s

/-- READT j (R83): RESULT is the word at position `-(31 − j)`; NOT_READY where that slot holds no word; IDX = 31 is
ILLEGAL_CMD. -/
def execReadt (idx : BitVec 5) (s : State) : Host.Outcome State Fault Refusal :=
  if idx.toNat ≤ 30 then
    match position s.table (indexPosition idx) with
    | some w => .next (s.setResult w)
    | none => .next (s.raiseError .notReady)
  else .next (s.raiseError .illegalCmd)

/-- Equality of two generators (R86): both full, and the same word at every logical index. It is a predicate on
states; there is no compare command. -/
def sameGenerator (s t : State) : Prop :=
  s.size = Config.tableWords ∧ t.size = Config.tableWords ∧ ∀ j, j < Config.tableWords → s.table[j]? = t.table[j]?

end Sys2Proof.Machine
end

