-- ==== Sys2Proof/Machine/Update.lean ====
section
/-! DEFINITION. The update and output commands ADVANCE, PEEKS and PEEKO (41_advance_peek.md). -/

namespace Sys2Proof.Machine

/-- ADVANCE (R71): push the next word, RESULT is its output; NOT_READY while SIZE is not 31. -/
def execAdvance (s : State) : Host.Outcome State Fault Refusal :=
  match nextWord s.table with
  | some n => .next ((s.setTable (push s.table n)).setResult (out n))
  | none => .next (s.raiseError .notReady)

/-- PEEKS (R72): RESULT is the next word; NOT_READY while SIZE is not 31. -/
def execPeeks (s : State) : Host.Outcome State Fault Refusal :=
  match nextWord s.table with
  | some n => .next (s.setResult n)
  | none => .next (s.raiseError .notReady)

/-- PEEKO (R73): RESULT is the next word's output; NOT_READY while SIZE is not 31. -/
def execPeeko (s : State) : Host.Outcome State Fault Refusal :=
  match nextWord s.table with
  | some n => .next (s.setResult (out n))
  | none => .next (s.raiseError .notReady)

end Sys2Proof.Machine
end

