-- ==== Sys2Proof/Machine/Dispatch.lean ====
section
/-! DEFINITION. The dispatch of `Execute(c, a)` on a decoded command (30_encoding.md R52): one arm per command. -/

namespace Sys2Proof.Machine

def exec (i : Instr) (s : State) : Host.Outcome State Fault Refusal :=
  match i with
  | .nop => Sys2Proof.Machine.execNop s
  | .advance => Sys2Proof.Machine.execAdvance s
  | .peeks => Sys2Proof.Machine.execPeeks s
  | .peeko => Sys2Proof.Machine.execPeeko s
  | .seed => Sys2Proof.Machine.execSeed s
  | .loadpush => Sys2Proof.Machine.execLoadpush s
  | .readt idx => Sys2Proof.Machine.execReadt idx s

end Sys2Proof.Machine
end

