-- ==== Sys2Proof/Machine/Completion.lean ====
section
/-! DEFINITION. The engine's completion step (20_memory.md R42), and sequences of commands each issued and completed
before the next. -/

namespace Sys2Proof.Machine

/-- `Execute(c, a)` (30_encoding.md R52) for the pending command of `s`: ILLEGAL_CMD is checked before anything else
of the command (60_exceptions.md R91, R98). -/
def execute (c : Word) (s : State) : Host.Outcome State Fault Refusal :=
  match decode c with
  | .ok i => exec i s
  | .error _ => .next (s.raiseError .illegalCmd)

/-- A command that has run leaves no command pending (R42: "PEND <- none"). -/
def retireOutcome : Host.Outcome State Fault Refusal → Host.Outcome State Fault Refusal
  | .next s => .next s.retire
  | .fault f => .fault f
  | .refused r => .refused r

/-- The completion step is enabled iff `PEND != none` and `ERR = 0` (R42). -/
def State.completionEnabled (s : State) : Bool := s.busy && !s.err

/-- `EngineStep()` (R42), one atomic step. Where it is not enabled the engine holds its state (60_exceptions.md R94,
R106). -/
def engineStep (s : State) : Host.Outcome State Fault Refusal :=
  if s.err then .next s
  else match s.pend with
    | none => .next s
    | some p => retireOutcome (execute p.word s)

/-- One command with its captured operand, issued and completed with nothing in between; ignored by a halted engine
(60_exceptions.md R94). -/
def runCommand (p : Pending) (s : State) : Host.Outcome State Fault Refusal :=
  if s.err then .next s else engineStep { s with pend := some p }

/-- A sequence of commands, each completed before the next is issued (10_state.md R14). -/
def runCommands : List Pending → State → Host.Outcome State Fault Refusal
  | [], s => .next s
  | p :: ps, s =>
    match runCommand p s with
    | .next t => runCommands ps t
    | .fault f => .fault f
    | .refused r => .refused r

/-- The value a command gives RESULT where it completes without an error, none where it writes none (R20). -/
def resultWritten (p : Pending) (s : State) : Option Word :=
  match decode p.word, runCommand p s with
  | .ok .advance, .next t => if t.err then none else some t.result
  | .ok .peeks, .next t => if t.err then none else some t.result
  | .ok .peeko, .next t => if t.err then none else some t.result
  | .ok (.readt _), .next t => if t.err then none else some t.result
  | _, _ => none

/-- What a sequence of commands writes to RESULT, command by command. -/
def resultsWritten : List Pending → State → List (Option Word)
  | [], _ => []
  | p :: ps, s =>
    match runCommand p s with
    | .next t => resultWritten p s :: resultsWritten ps t
    | .fault _ => []
    | .refused _ => []

end Sys2Proof.Machine
end

