-- ==== Sys2Proof/Machine/HostAgent.lean ====
section
/-! DEFINITION. The host agent: the effect of one host operation (20_memory.md R41, 30_encoding.md R56). -/

namespace Sys2Proof.Machine

/-- RD STATUS: `HostRead(0xC, 4)` (R56). -/
def readStatus (s : State) : Word × State := hostRead 0xC#4 4 s

/-- One read of a POLL (R56): it stays in the program while the STATUS it reads has BUSY = 1. -/
def hostPoll (s : State) : State :=
  if (readStatus s).1.getLsbD 0 then
    { (readStatus s).2.record (readStatus s).1 with program := .poll :: s.program }
  else (readStatus s).2.record (readStatus s).1

/-- One host operation, already taken from the program. A read's value is recorded; an access outside the window
reaches nothing of the engine and records nothing (20_memory.md R32; log 7). -/
def hostPerform (op : HostOp) (s : State) : State :=
  match op with
  | .read off n => (hostRead off n s).2.record (hostRead off n s).1
  | .write off n v => hostWrite off n v s
  | .poll => hostPoll s
  | .reset => s.hostReset
  | .memRead a n =>
    match memRead a n s with
    | some r => r.2.record r.1
    | none => s
  | .memWrite a n v =>
    match memWrite a n v s with
    | some t => t
    | none => s

/-- The host takes the first operation of its program; the pending command is one host operation nearer to its
completion. -/
def State.takeOp (s : State) (rest : List HostOp) : State := { s with program := rest, wait := s.wait - 1 }

/-- The host's step: the operation `op`, with `rest` still to do. -/
def hostStep (op : HostOp) (rest : List HostOp) (s : State) : State := hostPerform op (s.takeOp rest)

end Sys2Proof.Machine
end

