-- ==== Sys2Proof/Machine/Schedule.lean ====
section
/-! DEFINITION. Which agent moves next (20_memory.md R41 to R43). An execution is an interleaving of host operations
and completion steps; which one, plain data in the state says (log 3). -/

namespace Sys2Proof.Machine

/-- The agent that moves next. -/
inductive Mover where
  | engine
  | host (op : HostOp) (rest : List HostOp)
  /-- Neither agent has a step: the program is used up and no completion step is enabled (70_reset_and_hazards.md
  R121). -/
  | idle
deriving DecidableEq, Repr

/-- The engine moves once the pending command's host operations have gone by, or the host has none left: so a
completion step may come after any number of host operations, and always comes (R42, R120). -/
def State.mover (s : State) : Mover :=
  match s.program with
  | [] => if s.completionEnabled then .engine else .idle
  | op :: rest => if s.completionEnabled && s.wait == 0 then .engine else .host op rest

/-- One step of the agent that moves next. An idle machine holds its state (60_exceptions.md R106; log 4). -/
def agentStep (s : State) : Host.Outcome State Fault Refusal :=
  match s.mover with
  | .engine => engineStep s
  | .host op rest => .next (hostStep op rest s)
  | .idle => .next s

end Sys2Proof.Machine
end

