-- ==== Sys2Proof/Machine/Step.lean ====
section
/-! DEFINITION. One step of the machine, and the state in which a given command word runs next. -/

namespace Sys2Proof.Machine

/-- One step: one atomic step of the agent that moves next (20_memory.md R43). -/
def step (s : State) : Host.Outcome State Fault Refusal := agentStep s

/-- `s` with a command word presented so that the next step completes exactly it. The engine fetches nothing
(20_memory.md R45): the place a command is taken from is PEND (R42; log 5). -/
def State.withFetchWord (s : State) (nbits w : Nat) : State := s.present (BitVec.ofNat 32 (w % 2 ^ nbits))

end Sys2Proof.Machine
end

