-- ==== Sys2Proof/Machine/HostProgram.lean ====
section
/-! DEFINITION. Host programs: the host operations of 30_encoding.md R56 under their names, and the
pseudo-instructions of R57 with their expansions. -/

namespace Sys2Proof.Machine

/-- `WR CMD, <word>`. -/
abbrev wrCmd (w : Word) : HostOp := .write 0x0#4 4 w
/-- `WR ARG, <word>`. -/
abbrev wrArg (w : Word) : HostOp := .write 0x4#4 4 w
/-- `WR RESULT, <word>`, ignored. -/
abbrev wrResult (w : Word) : HostOp := .write 0x8#4 4 w
/-- `WR STATUS, <word>`, ignored. -/
abbrev wrStatus (w : Word) : HostOp := .write 0xC#4 4 w
/-- `RD CMD`, always 0x00000000. -/
abbrev rdCmd : HostOp := .read 0x0#4 4
/-- `RD ARG`. -/
abbrev rdArg : HostOp := .read 0x4#4 4
/-- `RD RESULT`. -/
abbrev rdResult : HostOp := .read 0x8#4 4
/-- `RD STATUS`. -/
abbrev rdStatus : HostOp := .read 0xC#4 4

/-- The pseudo-instructions (R57). -/
inductive Pseudo where
  | nop | advance | peeks | peeko
  | seed (s : Word)
  | loadpush (w : Word)
  | readt (idx : BitVec 5)
  /-- LOADTABLE: the words of the table, oldest first. -/
  | loadtable (words : List Word)
  | table
deriving DecidableEq, Repr

/-- `WR CMD` of a command, then POLL. -/
def issueAndPoll (i : Instr) : List HostOp := [wrCmd (encode i), .poll]

/-- The expansion of LOADPUSH. -/
def expandLoadpush (w : Word) : List HostOp := wrArg w :: issueAndPoll .loadpush

/-- The expansion of READT. -/
def expandReadt (idx : BitVec 5) : List HostOp := issueAndPoll (.readt idx) ++ [rdResult]

/-- The expansion of a pseudo-instruction (R57). -/
def Pseudo.expand : Pseudo → List HostOp
  | .nop => issueAndPoll .nop
  | .advance => issueAndPoll .advance ++ [rdResult]
  | .peeks => issueAndPoll .peeks ++ [rdResult]
  | .peeko => issueAndPoll .peeko ++ [rdResult]
  | .seed s => wrArg s :: issueAndPoll .seed
  | .loadpush w => expandLoadpush w
  | .readt idx => expandReadt idx
  | .loadtable words => words.flatMap expandLoadpush
  | .table => (List.range 31).flatMap fun j => expandReadt (BitVec.ofNat 5 j)

/-- A program of pseudo-instructions. -/
def expandAll (ps : List Pseudo) : List HostOp := ps.flatMap Pseudo.expand

end Sys2Proof.Machine
end

