-- ==== Sys2Proof/Machine/AtomicHost.lean ====
section
/-! DEFINITION. A program of pseudo-instructions (30_encoding.md R57) as the host means it: each command completed
at once, no polling, no interleaving. -/

namespace Sys2Proof.Machine

/-- The commands of a pseudo-instruction, each with the word it first writes to ARG, if any (R57). -/
def Pseudo.commands : Pseudo → List (Option Word × Instr)
  | .nop => [(none, .nop)]
  | .advance => [(none, .advance)]
  | .peeks => [(none, .peeks)]
  | .peeko => [(none, .peeko)]
  | .seed s => [(some s, .seed)]
  | .loadpush w => [(some w, .loadpush)]
  | .readt idx => [(none, .readt idx)]
  | .loadtable words => words.map fun w => (some w, .loadpush)
  | .table => (List.range 31).map fun j => (none, .readt (BitVec.ofNat 5 j))

/-- ARG <- v, where the command writes it first. -/
def State.setArg? (s : State) : Option Word → State
  | some v => { s with arg := v }
  | none => s

/-- The commands one after another, each with ARG as it stands at its CMD write. -/
def atomicCommands : List (Option Word × Instr) → State → Host.Outcome State Fault Refusal
  | [], s => .next s
  | (v, i) :: cs, s =>
    match runCommand ⟨encode i, (s.setArg? v).arg⟩ (s.setArg? v) with
    | .next t => atomicCommands cs t
    | .fault f => .fault f
    | .refused r => .refused r

/-- A program of pseudo-instructions, completed command by command. -/
def atomicProgram (ps : List Pseudo) (s : State) : Host.Outcome State Fault Refusal :=
  atomicCommands (ps.flatMap Pseudo.commands) s

end Sys2Proof.Machine
end

