-- ==== Sys2Proof/Machine/Ports.lean ====
section
/-! DEFINITION. The block's ports (70_reset_and_hazards.md R123): what one bus cycle asks of the engine, and what the
engine drives. The model has no clock (R120), so `clk` is not here. -/

namespace Sys2Proof.Machine

/-- The input ports of one cycle. -/
structure PortsIn where
  rst : Bool
  sel : Bool
  we : Bool
  addr : BitVec 4
  size : BitVec 2
  wdata : Word
deriving DecidableEq, Repr

/-- The access width in bytes a `size` code names; the reserved code 3 names none, which is a bad access (R123;
log 11). -/
def portWidth (size : BitVec 2) : Nat :=
  match size.toNat with
  | 0 => 1
  | 1 => 2
  | 2 => 4
  | _ => 0

/-- The host operation of a cycle: reset, one access, or none. Reset wins over an access (log 10). -/
def PortsIn.operation (p : PortsIn) : Option HostOp :=
  if p.rst then some .reset
  else if p.sel then
    some (if p.we then .write p.addr (portWidth p.size) p.wdata else .read p.addr (portWidth p.size))
  else none

/-- The engine after a cycle's operation. -/
def portsNext (p : PortsIn) (s : State) : State :=
  match p.operation with
  | some op => hostPerform op s
  | none => s

/-- `rdata` in a cycle that reads; the spec names no value in any other. -/
def portsRdata (p : PortsIn) (s : State) : Option Word :=
  match p.operation with
  | some (.read off n) => some (hostRead off n s).1
  | _ => none

end Sys2Proof.Machine
end

