-- ==== Sys2Proof/Machine/Sequence.lean ====
section
/-! DEFINITION. The conceptual infinite sequence of a seed (40_construction.md R64), as a property of a sequence of
words: it names no table, no push and no command, so that SEED and ADVANCE can be held against it. -/

namespace Sys2Proof.Machine

/-- `f 0, f 1, f 2, …` are the words `s_0, s_1, s_2, …` of the seed `S`: `s_0 = S`, the Park–Miller words to `s_30`
(R60, with the floored remainder of R61), the copies `s_31, s_32, s_33` of `s_0, s_1, s_2` (R62), and the recurrence
`s_i = add32(s_{i−3}, s_{i−31})` from `s_34` on (R64). -/
def IsRawSequence (S : Word) (f : Nat → Word) : Prop :=
  f 0 = S ∧
  (∀ i, i < 30 → f (i + 1) = BitVec.ofInt 32 (Int.emod (16807 * s32 (f i)) 2147483647)) ∧
  (f 31 = f 0 ∧ f 32 = f 1 ∧ f 33 = f 2) ∧
  (∀ i, f (i + 34) = add32 (f (i + 31)) (f (i + 3)))

end Sys2Proof.Machine
end

