-- ==== Sys2Proof/Machine/Timing.lean ====
section
/-! DEFINITION. Which latency parameter a command word has (70_reset_and_hazards.md R119). No step reads it: the model
has no clock (R120). -/

namespace Sys2Proof.Machine

/-- The latency parameter of a command word; an illegal word takes `LAT_NOP` (R119). -/
def latencyName (c : Word) : Config.LatencyName :=
  match decode c with
  | .ok .nop => .latNop
  | .ok .advance => .latAdvance
  | .ok .peeks => .latPeek
  | .ok .peeko => .latPeek
  | .ok .seed => .latSeed
  | .ok .loadpush => .latLoadpush
  | .ok (.readt _) => .latReadt
  | .error _ => .latNop

/-- The clock cycles from a CMD write to its completion step: OPEN (R119, D21). -/
def commandLatency (c : Word) : Nat := Config.latency (latencyName c)

end Sys2Proof.Machine
end

