-- ==== Sys2Proof/Safety.lean ====
section
/-! DEFINITION. Runs of a host program, what is observed of one, and what every state of a run satisfies
(70_reset_and_hazards.md R121, 60_exceptions.md R107). -/

namespace Sys2Proof

open Sys2Proof.Machine

/-- A host program at the start of its run: the machine after reset, with the program to do and a list of completion
delays for its commands (R121; log 2, log 3). -/
def startOf (program : List HostOp) (delays : List Nat) : State :=
  { State.reset with program := program, delays := delays }

/-- A run has ended: the host has performed its last operation and `PEND = none` (R121). -/
abbrev RunEnded (s : State) : Prop := s.program = [] ∧ s.pend = none

/-- A run is final: it has ended with `ERR = 0` (R121). -/
abbrev RunFinal (s : State) : Prop := RunEnded s ∧ s.err = false

/-- The observation of a run (R121): the values its host reads returned, and the final `(T, ARG, RESULT, STATUS)`. -/
structure Observation where
  reads : List Word
  table : List Word
  arg : Word
  result : Word
  status : Word
deriving DecidableEq, Repr

/-- The observation a state gives (R121). -/
def observe (s : State) : Observation := ⟨s.reads, s.table, s.arg, s.result, s.statusWord⟩

/-- What holds of every state of a run: SIZE is at most 31 (10_state.md R15), ECODE is 0 exactly while ERR is 0
(R24), and a halted engine has no pending command (60_exceptions.md R93, R94). -/
abbrev Consistent (s : State) : Prop :=
  s.table.length ≤ 31 ∧ (s.err = false ↔ s.ecode = ErrorCode.none) ∧ (s.err = true → s.pend = none)

/-- The polling discipline of a program of pseudo-instructions (30_encoding.md R57, 70_reset_and_hazards.md R115): what
the host still has to do is a suffix of an expansion, a command is pending only where POLL is the host's next operation,
and no error of the host is recorded. -/
def PollDiscipline (s : State) : Prop :=
  (∃ ps, s.program <:+ expandAll ps)
  ∧ (s.pend = none ∨ ∃ rest, s.program = .poll :: rest)
  ∧ s.ecode ≠ .busyViolation ∧ s.ecode ≠ .badAccess

/-- `k` steps of the machine, stopping at a fault or a refusal. -/
def runSteps : Nat → State → Host.Outcome State Fault Refusal
  | 0, s => .next s
  | k + 1, s =>
    match Machine.step s with
    | .next t => runSteps k t
    | .fault f => .fault f
    | .refused r => .refused r

/-- `Legal(c)` of 30_encoding.md R52, on the number the word is: `OP = c mod 16`, `IDX = c / 16 mod 32`,
`RSV = c / 512`. -/
abbrev LegalWord (c : Word) : Prop :=
  c.toNat / 512 = 0 ∧
    ((c.toNat % 16 ≤ 5 ∧ c.toNat / 16 % 32 = 0) ∨ (c.toNat % 16 = 6 ∧ c.toNat / 16 % 32 ≤ 30))

/-- A host access that is not 4 bytes wide, or not at a multiple of 4 (20_memory.md R35). -/
abbrev BadAccess (off : BitVec 4) (n : Nat) : Prop := n ≠ 4 ∨ off.toNat % 4 ≠ 0

/-- A command that writes no word of T: NOP, PEEKS, PEEKO or READT (10_state.md R29). -/
def LeavesTable (p : Pending) : Prop :=
  decode p.word = .ok .nop ∨ decode p.word = .ok .peeks ∨ decode p.word = .ok .peeko
    ∨ ∃ idx, decode p.word = .ok (.readt idx)

/-- A generator that can run: a full table and no error (10_state.md R16, 60_exceptions.md R94). -/
abbrev Ready (s : State) : Prop := s.table.length = 31 ∧ s.err = false

/-- The same spec state: all of the tuple of 10_state.md R29. -/
abbrev SameSpecState (s t : State) : Prop :=
  s.table = t.table ∧ s.arg = t.arg ∧ s.result = t.result ∧ s.err = t.err ∧ s.ecode = t.ecode ∧ s.pend = t.pend

/-- The same host side: the model's own fields (logs 2 and 3). -/
abbrev SameHostSide (s t : State) : Prop :=
  s.program = t.program ∧ s.reads = t.reads ∧ s.delays = t.delays ∧ s.issued = t.issued ∧ s.wait = t.wait

/-- The states a run of some host program comes through. -/
inductive Reachable : State → Prop where
  | start (program : List HostOp) (delays : List Nat) : Reachable (startOf program delays)
  | step {s t : State} : Reachable s → Machine.step s = .next t → Reachable t

end Sys2Proof
end

