-- ==== Sys2Proof/Certificates/Slice0/Obligations.lean ====
section
/-! DEFINITION. The statements about the machine that the provers settle. Each docstring names the rules of spec/ it
comes from. No statement rests on a value of a free value or of an open parameter. -/

open Sys2Proof
open Sys2Proof.Machine

/-! ## Encoding -/

/-- Words of the decode table of 95_test_vectors.md section 5, written out from 30_encoding.md R46 and R51, decode as
listed there. A sanity statement. -/
def Obligations.ListedWordsDecode : Prop :=
  decode 0x00000000 = .ok .nop ∧ decode 0x00000001 = .ok .advance ∧ decode 0x00000002 = .ok .peeks
  ∧ decode 0x00000003 = .ok .peeko ∧ decode 0x00000004 = .ok .seed ∧ decode 0x00000005 = .ok .loadpush
  ∧ decode 0x00000006 = .ok (.readt 0) ∧ decode 0x00000016 = .ok (.readt 1) ∧ decode 0x000001E6 = .ok (.readt 30)
  ∧ decode 0x000001F6 = .error .indexOutOfRange ∧ decode 0x00000007 = .error .reservedOperation
  ∧ decode 0x00000010 = .error .indexOnPlainOperation ∧ decode 0x00000206 = .error .reservedBitsSet
  ∧ decode 0xFFFFFFFF = .error .reservedBitsSet

/-- Decoding the encoding of a well-formed command gives the command back, whatever its operand (R46 to R51). -/
def Obligations.DecodeOfEncode : Prop :=
  ∀ i : Instr, i.wellFormed = true → decode (encode i) = .ok i

/-- A decoded word is the encoding of what it decodes to, and that is well-formed: no two legal words mean the same
command (R51, R52). -/
def Obligations.EncodeOfDecode : Prop :=
  ∀ (c : Word) (i : Instr), decode c = .ok i → i.wellFormed = true ∧ encode i = c

/-- R52: which words are legal, what Execute does with each, and that exactly 37 words are legal. -/
def Obligations.LegalWordsAndExecute : Prop :=
  (∀ c : Word, (∃ i, decode c = .ok i) ↔ LegalWord c)
  ∧ (∀ (c : Word) (s : State), ¬ LegalWord c → execute c s = .next (s.raiseError .illegalCmd))
  ∧ (∀ (c : Word) (s : State), LegalWord c →
      (c.toNat % 16 = 0 → execute c s = exec .nop s)
      ∧ (c.toNat % 16 = 1 → execute c s = exec .advance s)
      ∧ (c.toNat % 16 = 2 → execute c s = exec .peeks s)
      ∧ (c.toNat % 16 = 3 → execute c s = exec .peeko s)
      ∧ (c.toNat % 16 = 4 → execute c s = exec .seed s)
      ∧ (c.toNat % 16 = 5 → execute c s = exec .loadpush s)
      ∧ (c.toNat % 16 = 6 → execute c s = exec (.readt (BitVec.ofNat 5 (c.toNat / 16 % 32))) s))
  ∧ ∃ l : List Word,
      l = [0x0, 0x1, 0x2, 0x3, 0x4, 0x5] ++ (List.range 31).map (fun j => BitVec.ofNat 32 (0x6 + 16 * j))
      ∧ l.length = 37 ∧ l.Nodup ∧ ∀ c : Word, LegalWord c ↔ c ∈ l

/-- R91: the completion step of an illegal word raises ILLEGAL_CMD before anything else of the command: ERR, ECODE
and PEND are all it writes. -/
def Obligations.IllegalWordCompletion : Prop :=
  ∀ (s : State) (p : Pending), s.err = false → s.pend = some p → ¬ LegalWord p.word →
    engineStep s = .next { s with err := true, ecode := .illegalCmd, pend := none }

/-! ## Reset -/

/-- R110: the reset values of every piece of state the spec names, at power-on and after the host asserts reset in
any state. -/
def Obligations.ResetValues : Prop :=
  (State.reset.table = [] ∧ State.reset.size = 0 ∧ State.reset.arg = 0 ∧ State.reset.result = 0
    ∧ State.reset.busy = false ∧ State.reset.err = false ∧ State.reset.ecode = .none ∧ State.reset.ecode.code = 0
    ∧ State.reset.statusWord = 0 ∧ State.reset.pend = none)
  ∧ ∀ s : State, SameSpecState s.hostReset State.reset ∧ s.hostReset.statusWord = 0

/-- A host RESET that is the next step sets every reset value in one step, from any state: idle, halted, or busy with a
command pending, which is abandoned with none of its effects (70_reset_and_hazards.md R109 to R111). The last two
clauses, that the host keeps its remaining program and what it has read, are the model's own (log 9). -/
def Obligations.ResetAtAnyTime : Prop :=
  ∀ (s : State) (rest : List HostOp), s.program = .reset :: rest →
    (s.pend = none ∨ s.err = true ∨ s.wait ≠ 0) →
    ∃ t, step s = .next t ∧ SameSpecState t State.reset ∧ t.program = rest ∧ t.reads = s.reads

/-! ## The register window -/

/-- R21: the layout of STATUS as a legal read returns it, its reset value, and that writes to it are ignored. -/
def Obligations.StatusLayout : Prop :=
  (∀ s : State, s.table.length ≤ 31 →
    ∃ v : Word, hostRead 0xC#4 4 s = (v, s)
      ∧ v.getLsbD 0 = s.pend.isSome ∧ v.getLsbD 1 = s.err
      ∧ v.extractLsb' 2 2 = 0 ∧ v.extractLsb' 4 4 = s.ecode.code
      ∧ (v.extractLsb' 8 5).toNat = s.table.length ∧ v.extractLsb' 13 19 = 0)
  ∧ (hostRead 0xC#4 4 State.reset).1 = 0
  ∧ (∀ (s : State) (w : Word), hostWrite 0xC#4 4 w s = s)

/-- R36: HostRead. -/
def Obligations.HostReadRule : Prop :=
  ∀ (s : State) (off : BitVec 4) (n : Nat),
    (BadAccess off n → hostRead off n s = (0, s.raiseError .badAccess))
    ∧ (¬ BadAccess off n →
        (off = 0x0#4 → hostRead off n s = (0, s))
        ∧ (off = 0x4#4 → hostRead off n s = (s.arg, s))
        ∧ (off = 0x8#4 → hostRead off n s = (s.result, s))
        ∧ (off = 0xC#4 → hostRead off n s = (s.statusWord, s)))

/-- R37 and R98's order of checks: HostWrite. (What issuing does to the model's own schedule fields is log 3.) -/
def Obligations.HostWriteRule : Prop :=
  ∀ (s : State) (off : BitVec 4) (n : Nat) (v : Word),
    (BadAccess off n → hostWrite off n v s = s.raiseError .badAccess)
    ∧ (¬ BadAccess off n →
        (off = 0x0#4 →
          (s.err = true → hostWrite off n v s = s)
          ∧ (s.err = false → s.pend ≠ none →
              hostWrite off n v s = { s with err := true, ecode := .busyViolation, pend := none })
          ∧ (s.err = false → s.pend = none →
              SameSpecState (hostWrite off n v s) { s with pend := some ⟨v, s.arg⟩ }))
        ∧ (off = 0x4#4 → hostWrite off n v s = { s with arg := v })
        ∧ (off = 0x8#4 → hostWrite off n v s = s)
        ∧ (off = 0xC#4 → hostWrite off n v s = s))

/-- R97: a bad access, at any time: the read value is 0, a write is ignored, and BAD_ACCESS is raised: it discards a
pending command, and records nothing where the engine is halted. -/
def Obligations.BadAccessEffect : Prop :=
  ∀ (s : State) (off : BitVec 4) (n : Nat) (v : Word), BadAccess off n →
    (s.err = false →
      hostRead off n s = (0, { s with err := true, ecode := .badAccess, pend := none })
      ∧ hostWrite off n v s = { s with err := true, ecode := .badAccess, pend := none })
    ∧ (s.err = true →
      hostRead off n s = (0, { s with pend := none }) ∧ hostWrite off n v s = { s with pend := none })

/-- R96: a CMD write while a command is pending and ERR = 0 raises BUSY_VIOLATION as one step of the host; the word is
not issued and the pending command is discarded without effect. -/
def Obligations.BusyViolationStep : Prop :=
  ∀ (s : State) (c : Word) (rest : List HostOp), s.program = .write 0x0#4 4 c :: rest → s.err = false →
    s.pend ≠ none → s.wait ≠ 0 →
    ∃ t, step s = .next t ∧ SameSpecState t { s with err := true, ecode := .busyViolation, pend := none }
      ∧ t.program = rest

/-- R117 (R19, R27): ARG may be written in every state, and a write while a command is pending does not affect it: completing before or after the write
leaves the same state. -/
def Obligations.ArgWriteNeverReachesPending : Prop :=
  ∀ (s : State) (v : Word), hostWrite 0x4#4 4 v s = { s with arg := v } ∧
    ∃ t, engineStep s = .next t ∧ engineStep (hostWrite 0x4#4 4 v s) = .next (hostWrite 0x4#4 4 v t)

/-- R32: BASE is 16-byte aligned; a host address reaches the engine iff it lies in the window, at offset `a − BASE`,
and then as HostRead and HostWrite (R10); an address outside it reaches nothing. -/
def Obligations.WindowAddressing : Prop :=
  Config.base % 16 = 0
  ∧ ∀ (a n : Nat) (v : Word) (s : State),
    (∀ off : BitVec 4, windowOffset a = some off ↔ (Config.base ≤ a ∧ a < Config.base + 16 ∧ a = Config.base + off.toNat))
    ∧ (¬ (Config.base ≤ a ∧ a < Config.base + 16) → memRead a n s = none ∧ memWrite a n v s = none)
    ∧ (∀ off : BitVec 4, windowOffset a = some off →
        memRead a n s = some (hostRead off n s) ∧ memWrite a n v s = some (hostWrite off n v s))

/-- R123: an access through the ports with `size != 2` or `addr[1:0] != 0` is a bad access, whose `rdata` is 0 where it
reads; any other is the 32-bit access at `addr`; with neither `rst` nor `sel` nothing happens. (That `rst` wins over
`sel` is the model's choice, log 10, and not stated.) -/
def Obligations.PortAccess : Prop :=
  ∀ (p : PortsIn) (s : State), p.rst = false →
    (p.sel = false → portsNext p s = s)
    ∧ (p.sel = true → (p.size ≠ 2 ∨ p.addr.extractLsb' 0 2 ≠ 0) →
        SameSpecState (portsNext p s) (s.raiseError .badAccess) ∧ (p.we = false → portsRdata p s = some 0))
    ∧ (p.sel = true → p.size = 2 → p.addr.extractLsb' 0 2 = 0 →
        (p.we = true → portsNext p s = hostWrite p.addr 4 p.wdata s)
        ∧ (p.we = false → SameSpecState (portsNext p s) s ∧ portsRdata p s = some (hostRead p.addr 4 s).1))

/-! ## Errors and the halt -/

/-- R93: what raising an error writes, first and later; and every error of a completion step is precise: the state is
the state before but for ERR, ECODE and PEND. -/
def Obligations.ErrorsArePrecise : Prop :=
  (∀ (s : State) (code : ErrorCode),
    (s.err = false → s.raiseError code = { s with err := true, ecode := code, pend := none })
    ∧ (s.err = true → s.raiseError code = { s with pend := none }))
  ∧ ∀ s t : State, s.err = false → engineStep s = .next t → t.err = true →
      (t.ecode = .illegalCmd ∨ t.ecode = .zeroSeed ∨ t.ecode = .notReady)
      ∧ t = { s with err := true, ecode := t.ecode, pend := none }

/-- R94: while ERR = 1 there is no completion step, a CMD write is ignored, ERR, ECODE, T and RESULT do not change by
any step but reset, a bad access is answered and records nothing, and legal reads and ARG writes work. -/
def Obligations.HaltedEngine : Prop :=
  ∀ s : State, s.err = true →
    engineStep s = .next s
    ∧ (∀ c : Word, hostWrite 0x0#4 4 c s = s)
    ∧ (∀ v : Word, hostWrite 0x4#4 4 v s = { s with arg := v })
    ∧ (∀ (off : BitVec 4) (n : Nat), ¬ BadAccess off n → (hostRead off n s).2 = s)
    ∧ (∀ (off : BitVec 4) (n : Nat), BadAccess off n →
        (hostRead off n s).1 = 0 ∧ (hostRead off n s).2.err = true ∧ (hostRead off n s).2.ecode = s.ecode)
    ∧ ∃ t, step s = .next t ∧
        ((∃ rest, s.program = .reset :: rest)
          ∨ (t.err = true ∧ t.ecode = s.ecode ∧ t.table = s.table ∧ t.result = s.result))

/-- 10_state.md R23, R24, 60_exceptions.md R107: ERR is sticky. A step from a halted state leaves the halt only where
it is a host RESET, and a step that sets ERR writes one of the five codes of R90. -/
def Obligations.OnlyResetClearsErr : Prop :=
  ∀ s t : State, step s = .next t →
    (s.err = true → t.err = false → ∃ rest, s.program = .reset :: rest)
    ∧ (s.err = false → t.err = true → t.ecode ≠ .none)

/-- 10_state.md R16: SIZE is never lowered but by reset, and never exceeds 31. -/
def Obligations.SizeNeverLowered : Prop :=
  ∀ s t : State, s.size ≤ 31 → step s = .next t →
    t.size ≤ 31 ∧ (s.size ≤ t.size ∨ ∃ rest, s.program = .reset :: rest)

/-- 70_reset_and_hazards.md R122, 10_state.md R19, R20, R29: what the engine never does, and what a host access never
does. A completion step never writes ARG, changes T only for SEED, LOADPUSH and ADVANCE, changes RESULT only for
ADVANCE, PEEKS, PEEKO and READT, and never clears ERR. A host operation other than RESET changes neither T nor
RESULT, and ARG only by a write. -/
def Obligations.WritersOfEachRegister : Prop :=
  (∀ s t : State, engineStep s = .next t →
    t.arg = s.arg
    ∧ (t.table ≠ s.table → ∃ p, s.pend = some p ∧
        (decode p.word = .ok .seed ∨ decode p.word = .ok .loadpush ∨ decode p.word = .ok .advance))
    ∧ (t.result ≠ s.result → ∃ p, s.pend = some p ∧
        (decode p.word = .ok .advance ∨ decode p.word = .ok .peeks ∨ decode p.word = .ok .peeko
          ∨ ∃ idx, decode p.word = .ok (.readt idx)))
    ∧ (s.err = true → t.err = true))
  ∧ ∀ (s : State) (op : HostOp), op ≠ .reset →
      (hostPerform op s).table = s.table ∧ (hostPerform op s).result = s.result
      ∧ ((hostPerform op s).arg ≠ s.arg →
          (∃ off n v, op = .write off n v) ∨ ∃ a n v, op = .memWrite a n v)

/-! ## The commands -/

/-- 42_table_access.md R84: NOP completes in every state and writes nothing; as a pending command it only clears
BUSY. -/
def Obligations.NopEffect : Prop :=
  (∀ s : State, exec .nop s = .next s)
  ∧ ∀ (s : State) (a : Word), s.err = false → s.pend = some ⟨0x00000000, a⟩ →
      engineStep s = .next { s with pend := none }

/-- 41_advance_peek.md R71: ADVANCE. On a full table it pushes `add32(T(-3), T(-31))`, both read before the push, evicts
the oldest word and writes the output to RESULT, and writes nothing else; while SIZE is not 31 it raises NOT_READY. -/
def Obligations.AdvanceEffect : Prop :=
  (∀ s : State, s.table.length = 31 →
    ∃ x y, s.table[28]? = some x ∧ s.table[0]? = some y
      ∧ exec .advance s = .next { s with table := s.table.tail ++ [x + y], result := (x + y) >>> 1 })
  ∧ ∀ s : State, s.table.length ≠ 31 → s.err = false →
      exec .advance s = .next { s with err := true, ecode := .notReady, pend := none }

/-- 41_advance_peek.md R72, R73: PEEKS writes the next word to RESULT, PEEKO its output, and neither writes anything
else; while SIZE is not 31 both raise NOT_READY. -/
def Obligations.PeekEffect : Prop :=
  (∀ s : State, s.table.length = 31 →
    ∃ x y, s.table[28]? = some x ∧ s.table[0]? = some y
      ∧ exec .peeks s = .next { s with result := x + y }
      ∧ exec .peeko s = .next { s with result := (x + y) >>> 1 })
  ∧ ∀ s : State, s.table.length ≠ 31 → s.err = false →
      exec .peeks s = .next { s with err := true, ecode := .notReady, pend := none }
      ∧ exec .peeko s = .next { s with err := true, ecode := .notReady, pend := none }

/-- 40_construction.md R67: LOADPUSH completes at every SIZE: it pushes the captured operand, evicting the oldest word
of a full table, and writes nothing else. -/
def Obligations.LoadpushEffect : Prop :=
  ∀ (s : State) (p : Pending), s.pend = some p →
    (s.table.length = 31 → exec .loadpush s = .next { s with table := s.table.tail ++ [p.operand] })
    ∧ (s.table.length < 31 → exec .loadpush s = .next { s with table := s.table ++ [p.operand] })

/-- SEED and LOADPUSH have no operand where no command is pending (30_encoding.md R50, 10_state.md R27). That their
meanings then stop with a fault is the model's choice (log 12); no step raises it. -/
def Obligations.ConstructionNeedsCapturedOperand : Prop :=
  ∀ s : State, s.pend = none →
    exec .seed s = .fault .noCapturedOperand ∧ exec .loadpush s = .fault .noCapturedOperand

/-- 42_table_access.md R83: READT j writes the word at position `-(31 − j)` to RESULT, and writes nothing else; where
`31 − j > SIZE` it raises NOT_READY; index 31 is ILLEGAL_CMD (30_encoding.md R53). -/
def Obligations.ReadtEffect : Prop :=
  ∀ (s : State) (idx : BitVec 5),
    (idx.toNat ≤ 30 → 31 - idx.toNat ≤ s.table.length →
      ∃ w, s.table[s.table.length - (31 - idx.toNat)]? = some w
        ∧ exec (.readt idx) s = .next { s with result := w })
    ∧ (idx.toNat ≤ 30 → s.table.length < 31 - idx.toNat → s.err = false →
      exec (.readt idx) s = .next { s with err := true, ecode := .notReady, pend := none })
    ∧ (idx.toNat = 31 → s.err = false →
      exec (.readt idx) s = .next { s with err := true, ecode := .illegalCmd, pend := none })

/-- 60_exceptions.md R95: the completion step of SEED with operand 0 raises ZERO_SEED before any write. -/
def Obligations.ZeroSeedRefused : Prop :=
  ∀ s : State, s.err = false → s.pend = some ⟨0x00000004, 0⟩ →
    engineStep s = .next { s with err := true, ecode := .zeroSeed, pend := none }

/-- 40_construction.md R63, R66, R70 (with R64): for every nonzero seed there is its raw sequence, and SEED, whatever
table it finds, completes, leaves the words 313 to 343 of it and writes nothing else; the k-th ADVANCE after it
returns the output of word 343 + k, so that the outputs begin at index 344. -/
def Obligations.SeedThenAdvancesFollowRawSequence : Prop :=
  ∀ S : Word, S ≠ 0 → ∃ f : Nat → Word, IsRawSequence S f
    ∧ (∀ (s : State) (c : Word), s.pend = some ⟨c, S⟩ →
        exec .seed s = .next { s with table := (List.range 31).map fun j => f (313 + j) })
    ∧ ∀ (s : State) (k : Nat) (a : Word), s.err = false → s.table = (List.range 31).map (fun j => f (313 + j)) →
        ∃ t, runCommands (List.replicate k ⟨0x00000001, a⟩) s = .next t ∧ t.err = false
          ∧ t.table = (List.range 31).map (fun j => f (313 + k + j))
          ∧ (k ≠ 0 → t.result = f (343 + k) >>> 1)

/-- 40_construction.md R61: the two readings of the remainder give the same word. One step of the chain, made with the
truncating remainder, is the floored remainder of the exact product; so is each word of the expansion, from the word
before it. -/
def Obligations.RemainderReadingsAgree : Prop :=
  (∀ w : Word, ((pmStep w).toNat : Int) = (16807 * w.toInt) % 2147483647
    ∧ (Int.tmod (16807 * w.toInt) 2147483647 < 0 →
        ((pmStep w).toNat : Int) = Int.tmod (16807 * w.toInt) 2147483647 + 2147483647)
    ∧ (0 ≤ Int.tmod (16807 * w.toInt) 2147483647 →
        ((pmStep w).toNat : Int) = Int.tmod (16807 * w.toInt) 2147483647))
  ∧ ∀ (S v w : Word) (i : Nat), (seedWords S)[i]? = some v → (seedWords S)[i + 1]? = some w →
      (w.toNat : Int) = (16807 * v.toInt) % 2147483647

/-- 40_construction.md R65: the values of the expansion `r[0..30]`. -/
def Obligations.ExpansionRanges : Prop :=
  (∀ S : Word, S ≠ 0 →
    (seedWords S).length = 31 ∧ (seedWords S)[0]? = some S
    ∧ (∀ (i : Nat) (w : Word), 1 ≤ i → (seedWords S)[i]? = some w → w.toNat ≤ 2147483646)
    ∧ ((seedWords S)[1]? = some 0 ↔ (S = 0x7FFFFFFF ∨ S = 0x80000001))
    ∧ ((seedWords S)[1]? = some 0 → ∀ i, 2 ≤ i → i ≤ 30 → (seedWords S)[i]? = some 0))
  ∧ (seedWords 0x80000000).tail = (seedWords 0xFFFFFFFF).tail
  ∧ (seedWords 0x80000000)[1]? = some 0x7FFFBE58
  ∧ (seedWords 0xFFFFFFFE)[1]? = some 0x7FFF7CB1

/-- 41_advance_peek.md R74, R77: the output shifter, and the range of every RESULT that ADVANCE and PEEKO write on a
full table: at most 2^31 − 1, a bound that is reached. -/
def Obligations.OutputShifterRange : Prop :=
  (∀ w : Word, (out w).toNat = w.toNat / 2 ∧ (out w).getLsbD 31 = false ∧ (out w).extractLsb' 0 31 = w.extractLsb' 1 31)
  ∧ (∀ s : State, s.table.length = 31 →
      (∃ t, exec .advance s = .next t ∧ t.result.toNat ≤ 2147483647)
      ∧ (∃ t, exec .peeko s = .next t ∧ t.result.toNat ≤ 2147483647))
  ∧ ∃ s t : State, s.table.length = 31 ∧ exec .advance s = .next t ∧ t.result.toNat = 2147483647

/-- 41_advance_peek.md R75: the operands are those before the push, the evicted word is `T(-31)` itself, and the old
`T(-k)` is the new `T(-(k+1))`. -/
def Obligations.AdvanceShiftsPositions : Prop :=
  ∀ s : State, s.table.length = 31 →
    ∃ x y t, position s.table 3 = some x ∧ position s.table 31 = some y ∧ exec .advance s = .next t
      ∧ position t.table 1 = some (x + y) ∧ t.table.length = 31 ∧ s.table = y :: t.table.dropLast
      ∧ ∀ k, 1 ≤ k → k ≤ 30 → position t.table (k + 1) = position s.table k

/-- 41_advance_peek.md R78, the carry identity: the RESULT of ADVANCE is the sum of the operands' outputs and of the
carry, modulo 2^31. -/
def Obligations.CarryIdentity : Prop :=
  ∀ s : State, s.table.length = 31 →
    ∃ x y t, position s.table 3 = some x ∧ position s.table 31 = some y ∧ exec .advance s = .next t
      ∧ t.result.toNat = (x.toNat / 2 + y.toNat / 2 + (x.toNat % 2) * (y.toNat % 2)) % 2 ^ 31

/-- 41_advance_peek.md R81: bit 0 of the pushed word is the exclusive or of the operands' bits 0. -/
def Obligations.PushedWordParity : Prop :=
  ∀ s : State, s.table.length = 31 →
    ∃ x y n t, position s.table 3 = some x ∧ position s.table 31 = some y ∧ exec .advance s = .next t
      ∧ position t.table 1 = some n ∧ n.getLsbD 0 = (x.getLsbD 0).xor (y.getLsbD 0)

/-- 41_advance_peek.md R76: the recurrence. From any full table, k ADVANCEs push the words the recurrence gives. -/
def Obligations.RecurrenceOverAdvances : Prop :=
  ∀ s : State, Ready s →
    ∃ f : Nat → Word, (∀ j, j < 31 → s.table[j]? = some (f j))
      ∧ (∀ i, f (i + 31) = f (i + 28) + f i)
      ∧ ∀ (k : Nat) (a : Word), ∃ t, runCommands (List.replicate k ⟨0x00000001, a⟩) s = .next t ∧ t.err = false
          ∧ t.table = (List.range 31).map fun j => f (k + j)

/-- 41_advance_peek.md R79: after any commands that do not write T, PEEKS still returns the word the next ADVANCE
pushes and PEEKO the RESULT it writes, and T is unchanged. -/
def Obligations.PeekAgreesWithAdvance : Prop :=
  ∀ s : State, Ready s →
    ∃ n : Word, exec .peeks s = .next { s with result := n } ∧ exec .peeko s = .next { s with result := n >>> 1 }
      ∧ ∀ ps : List Pending, (∀ p, p ∈ ps → LeavesTable p) →
        ∃ u v, runCommands ps s = .next u ∧ u.table = s.table ∧ exec .advance u = .next v
          ∧ position v.table 1 = some n ∧ v.result = n >>> 1

/-- 41_advance_peek.md R80: the table after a command, the RESULT it writes and the error it raises are functions of
the table before it, the command word and the captured ARG. -/
def Obligations.CommandDeterminism : Prop :=
  ∀ (s s' : State) (p : Pending), s.table = s'.table → s.err = false → s'.err = false →
    s.ecode = .none → s'.ecode = .none →
    ∃ t t', runCommand p s = .next t ∧ runCommand p s' = .next t' ∧ t.table = t'.table
      ∧ resultWritten p s = resultWritten p s' ∧ t.err = t'.err ∧ t.ecode = t'.ecode

/-- 42_table_access.md R85: on a full table, in any sequence of NOP, PEEKS, PEEKO and READT, each READT j gives
RESULT the word `T[j]`, and T is unchanged; so READT 0 to READT 30 read the table out, oldest first. -/
def Obligations.TableView : Prop :=
  ∀ s : State, Ready s →
    (∀ ps : List Pending, (∀ p, p ∈ ps → LeavesTable p) →
      ∃ t, runCommands ps s = .next t ∧ t.table = s.table ∧ t.err = false
        ∧ (resultsWritten ps s).length = ps.length
        ∧ ∀ (k : Nat) (p : Pending) (idx : BitVec 5), ps[k]? = some p → decode p.word = .ok (.readt idx) →
            (resultsWritten ps s)[k]? = some s.table[idx.toNat]?)
    ∧ resultsWritten ((List.range 31).map fun j => ⟨BitVec.ofNat 32 (0x6 + 16 * j), s.arg⟩) s = s.table.map some

/-- 40_construction.md R68, R69: 31 LOADPUSH commands with the words of a table, oldest first, adopt it verbatim
whatever the table was before, and READT j then returns word j. -/
def Obligations.LoadTableRoundTrip : Prop :=
  ∀ (s : State) (ts : List Word), s.table.length ≤ 31 → s.err = false → ts.length = 31 →
    ∃ t, runCommands (ts.map fun w => ⟨0x00000005, w⟩) s = .next t ∧ t.table = ts ∧ t.size = 31 ∧ t.err = false
      ∧ t.arg = s.arg ∧ t.result = s.result
      ∧ ∀ (idx : BitVec 5) (w : Word), ts[idx.toNat]? = some w → exec (.readt idx) t = .next { t with result := w }

/-- 60_exceptions.md R92 and 42_table_access.md R88: on a table of 31 words or fewer, which completion steps raise
NOT_READY: ADVANCE, PEEKS and PEEKO exactly while SIZE is not 31, READT j exactly while `j < 31 − SIZE`, and no
other legal command. -/
def Obligations.NotReadyExactly : Prop :=
  ∀ (s : State) (p : Pending) (i : Instr), s.table.length ≤ 31 → s.err = false → s.pend = some p →
    decode p.word = .ok i →
    ∃ t, engineStep s = .next t
      ∧ (t.ecode = .notReady ∧ t.err = true ↔
          ((i = .advance ∨ i = .peeks ∨ i = .peeko) ∧ s.size < 31)
          ∨ ∃ idx, i = .readt idx ∧ idx.toNat < 31 - s.size)

/-- 60_exceptions.md R108: the all-zero table runs, and is a fixed point: every ADVANCE returns 0. -/
def Obligations.AllZeroTableIsFixed : Prop :=
  ∀ (s : State) (k : Nat) (a : Word), s.table = List.replicate 31 0 → s.err = false →
    ∃ t, runCommands (List.replicate k ⟨0x00000001, a⟩) s = .next t ∧ t.table = List.replicate 31 0 ∧ t.err = false
      ∧ (k ≠ 0 → t.result = 0)

/-- The frame of every command (10_state.md R29, 41_advance_peek.md R82): where its meaning answers a next state, ARG
and the host's side are as before, also read through the window; T differs only for SEED, LOADPUSH and ADVANCE, and
RESULT only for ADVANCE, PEEKS, PEEKO and READT; ERR, ECODE and PEND are as before, or an error was raised, and then
T and RESULT are as before. -/
def Obligations.CommandFrame : Prop :=
  ∀ (i : Instr) (s t : State), exec i s = .next t →
    t.arg = s.arg ∧ SameHostSide t s ∧ (hostRead 0x4#4 4 t).1 = (hostRead 0x4#4 4 s).1
    ∧ (t.table = s.table ∨ i = .seed ∨ i = .loadpush ∨ i = .advance)
    ∧ (t.result = s.result ∨ i = .advance ∨ i = .peeks ∨ i = .peeko ∨ ∃ idx, i = .readt idx)
    ∧ ((t.err = s.err ∧ t.ecode = s.ecode ∧ t.pend = s.pend)
        ∨ ((∃ code, t = s.raiseError code) ∧ t.table = s.table ∧ t.result = s.result))

/-! ## Equality of generators -/

/-- 42_table_access.md R86: equality of two full engines is equality of their tables word by word in logical order;
it is reflexive, symmetric and transitive on full engines, and it is not equality up to rotation. -/
def Obligations.GeneratorEquality : Prop :=
  (∀ s t : State, s.size = 31 → t.size = 31 → (sameGenerator s t ↔ s.table = t.table))
  ∧ (∀ s : State, s.size = 31 → sameGenerator s s)
  ∧ (∀ s t : State, sameGenerator s t → sameGenerator t s)
  ∧ (∀ s t u : State, sameGenerator s t → sameGenerator t u → sameGenerator s u)
  ∧ ∃ s t : State, s.size = 31 ∧ t.size = 31 ∧ t.table = s.table.rotate 1 ∧ ¬ sameGenerator s t

/-- 42_table_access.md R87: equal engines stay equal and write the same RESULTs under the same sequence of commands. -/
def Obligations.EqualGeneratorsRunAlike : Prop :=
  ∀ (s t : State) (ps : List Pending), sameGenerator s t → s.err = false → t.err = false →
    ∃ s' t', runCommands ps s = .next s' ∧ runCommands ps t = .next t' ∧ sameGenerator s' t' ∧ s'.err = t'.err
      ∧ resultsWritten ps s = resultsWritten ps t

/-! ## Steps, interleaving and runs -/

/-- 20_memory.md R42: where a completion step is enabled and due, one step of the machine is Execute of the decoded
command at that state, and then PEND is none. -/
def Obligations.StepRunsDecodedCommand : Prop :=
  ∀ (s : State) (p : Pending) (i : Instr), s.err = false → s.pend = some p → (s.program = [] ∨ s.wait = 0) →
    decode p.word = .ok i → ∃ t, exec i s = .next t ∧ step s = .next { t with pend := none }

/-- 60_exceptions.md R106 and 70_reset_and_hazards.md R121: with nothing pending and the host program used up the
machine holds its state; so does a halted one (R94). -/
def Obligations.IdleHoldsState : Prop :=
  ∀ s : State, s.program = [] → (s.pend = none ∨ s.err = true) → step s = .next s

/-- Every step answers a next state: the spec's errors are states, not stops (60_exceptions.md R89, R93). -/
def Obligations.StepAlwaysAnswersNext : Prop :=
  ∀ s : State, ∃ t, step s = .next t

/-- State after reset meets the invariant. -/
def Obligations.ResetIsConsistent : Prop := Consistent State.reset

/-- Every step keeps the invariant: SIZE is at most 31 (10_state.md R15), ECODE is 0 exactly while ERR is 0 (R24), and
a halted engine has no pending command (60_exceptions.md R93, R94). -/
def Obligations.StepKeepsConsistent : Prop :=
  ∀ s t : State, Consistent s → step s = .next t → Consistent t

/-- 70_reset_and_hazards.md R120, weak fairness: a pending command with ERR = 0 completes after finitely many host
operations. After at most `wait` host steps its completion step is the next step, or it was discarded by an error or
a reset. -/
def Obligations.CompletionAlwaysComes : Prop :=
  ∀ s : State, s.completionEnabled = true →
    ∃ n t, n ≤ s.wait ∧ runSteps n s = .next t ∧ (t.mover = .engine ∨ t.completionEnabled = false)

/-- 70_reset_and_hazards.md R120 and 20_memory.md R43: POLL terminates, after the number of reads the model's schedule
says (log 3), each of them recorded (log 8: both are the model's). From a pending command the host leaves POLL
with BUSY = 0 and every effect of the command in place; each STATUS it read before shows the state before the command,
with BUSY = 1. -/
def Obligations.PollTerminates : Prop :=
  ∀ (s : State) (rest : List HostOp), s.completionEnabled = true → s.program = .poll :: rest →
    ∃ t u, runSteps (s.wait + 2) s = .next t ∧ engineStep s = .next u ∧ SameSpecState t u
      ∧ t.program = rest ∧ t.pend = none
      ∧ t.reads = s.reads ++ List.replicate s.wait s.statusWord ++ [u.statusWord]

/-- 70_reset_and_hazards.md R116: a read of RESULT, or of STATUS.SIZE, between a CMD write and the POLL returns the
value before the command or the value after it; the model admits both, by the delay of the command. -/
def Obligations.EarlyReadSeesOldOrNew : Prop :=
  ∀ (s u : State) (c : Word) (rest : List HostOp) (d : Nat) (ds : List Nat), s.err = false → s.pend = none →
    s.delays = d :: ds → runCommand ⟨c, s.arg⟩ s = .next u →
    (s.program = .write 0x0#4 4 c :: .read 0x8#4 4 :: rest →
      (d = 0 → ∃ t, runSteps 3 s = .next t ∧ t.program = rest ∧ t.reads = s.reads ++ [u.result])
      ∧ (d ≠ 0 → ∃ t, runSteps 2 s = .next t ∧ t.program = rest ∧ t.reads = s.reads ++ [s.result]))
    ∧ (s.program = .write 0x0#4 4 c :: .read 0xC#4 4 :: rest →
      (d = 0 → ∃ t v, runSteps 3 s = .next t ∧ t.program = rest ∧ t.reads = s.reads ++ [v]
        ∧ v.extractLsb' 8 5 = BitVec.ofNat 5 u.size)
      ∧ (d ≠ 0 → ∃ t v, runSteps 2 s = .next t ∧ t.program = rest ∧ t.reads = s.reads ++ [v]
        ∧ v.extractLsb' 8 5 = BitVec.ofNat 5 s.size))

/-- 30_encoding.md R57: a program of pseudo-instructions, from any state with no command pending and no host error
recorded, never has a BUSY_VIOLATION, nor a BAD_ACCESS, under any interleaving. -/
def Obligations.PseudoProgramsNeverViolate : Prop :=
  ∀ (ps : List Pseudo) (s t : State) (n : Nat), s.program = expandAll ps → s.pend = none →
    s.ecode ≠ .busyViolation → s.ecode ≠ .badAccess → runSteps n s = .next t →
    t.ecode ≠ .busyViolation ∧ t.ecode ≠ .badAccess

/-- 30_encoding.md R57, 70_reset_and_hazards.md R115: every step keeps the polling discipline, from every state that has
it, whatever the delays. -/
def Obligations.StepKeepsPollDiscipline : Prop :=
  ∀ s t : State, PollDiscipline s → step s = .next t → PollDiscipline t

/-- The polling discipline holds after reset, and wherever a program of pseudo-instructions begins with no command
pending and no host error recorded. -/
def Obligations.PollDisciplineAtStart : Prop :=
  PollDiscipline State.reset
  ∧ ∀ (ps : List Pseudo) (s : State), s.program = expandAll ps → s.pend = none → s.ecode ≠ .busyViolation →
      s.ecode ≠ .badAccess → PollDiscipline s

/-- 30_encoding.md R57, 20_memory.md R43: under any interleaving a program of pseudo-instructions comes to its end, and
leaves the state its commands leave when each is completed at once, in program order. -/
def Obligations.PseudoProgramsRefineAtomicCommands : Prop :=
  ∀ (ps : List Pseudo) (s : State) (rest : List HostOp), s.program = expandAll ps ++ rest → s.pend = none →
    ∃ n t u, runSteps n s = .next t ∧ t.program = rest ∧ atomicProgram ps s = .next u ∧ SameSpecState t u

/-- 70_reset_and_hazards.md R119: every latency is at least one cycle; which parameter each command word takes, an
illegal word LAT_NOP. -/
def Obligations.LatencyParameters : Prop :=
  (∀ c : Word, 1 ≤ commandLatency c)
  ∧ (∀ c : Word, ¬ LegalWord c → commandLatency c = Config.latency .latNop)
  ∧ commandLatency 0x00000000 = Config.latency .latNop ∧ commandLatency 0x00000001 = Config.latency .latAdvance
  ∧ commandLatency 0x00000002 = Config.latency .latPeek ∧ commandLatency 0x00000003 = Config.latency .latPeek
  ∧ commandLatency 0x00000004 = Config.latency .latSeed ∧ commandLatency 0x00000005 = Config.latency .latLoadpush
  ∧ ∀ j : Nat, j ≤ 30 → commandLatency (BitVec.ofNat 32 (0x6 + 16 * j)) = Config.latency .latReadt
end

