-- ==== Sys2Proof/Laws/Decode.lean ====
section
/-! SUPPORT. The three fields of an encoded command. -/

namespace Sys2Proof

/-- The OP field of an encoded command is its operation code (30_encoding.md R47). -/
@[simp] theorem opField_encode (i : Instr) : opField (encode i) = i.opcode := by
  ext k hk
  simp [opField, encode, hk]
  omega

/-- The IDX field of an encoded command is its index (R48). -/
@[simp] theorem idxField_encode (i : Instr) : idxField (encode i) = i.index := by
  ext k hk
  simp [idxField, encode, (by omega : 4 + k < 32), hk]

/-- The RSV field of an encoded command is 0 (R49). -/
@[simp] theorem rsvField_encode (i : Instr) : rsvField (encode i) = 0 := by
  ext k hk
  simp [rsvField, encode, BitVec.getLsbD_of_ge i.opcode (9 + k) (by omega),
    BitVec.getLsbD_of_ge i.index (9 + k - 4) (by omega)]

/-- A decoded READT has an index of at most 30 (R48). -/
theorem decode_readt_index {c : Word} {idx : BitVec 5} (h : decode c = .ok (.readt idx)) : idx.toNat ≤ 30 := by
  unfold decode at h
  split at h
  · cases h
  · split at h
    all_goals first
      | (simp only [decodePlain] at h; split at h <;> cases h)
      | (simp only [decodeReadt] at h; split at h <;> cases h; assumption)
      | cases h

end Sys2Proof
end

