-- ==== Sys2Proof/Laws/State.lean ====
section
/-! SUPPORT. What each update of the state does to each field, so that no later proof unfolds an update. -/

namespace Sys2Proof.Machine.State

variable (s : State)

section setResult
variable (v : Word)
@[simp] theorem setResult_table : (s.setResult v).table = s.table := rfl
@[simp] theorem setResult_arg : (s.setResult v).arg = s.arg := rfl
@[simp] theorem setResult_result : (s.setResult v).result = v := rfl
@[simp] theorem setResult_err : (s.setResult v).err = s.err := rfl
@[simp] theorem setResult_ecode : (s.setResult v).ecode = s.ecode := rfl
@[simp] theorem setResult_pend : (s.setResult v).pend = s.pend := rfl
@[simp] theorem setResult_program : (s.setResult v).program = s.program := rfl
@[simp] theorem setResult_reads : (s.setResult v).reads = s.reads := rfl
@[simp] theorem setResult_delays : (s.setResult v).delays = s.delays := rfl
@[simp] theorem setResult_issued : (s.setResult v).issued = s.issued := rfl
@[simp] theorem setResult_wait : (s.setResult v).wait = s.wait := rfl
end setResult

section setTable
variable (t : List Word)
@[simp] theorem setTable_table : (s.setTable t).table = t := rfl
@[simp] theorem setTable_arg : (s.setTable t).arg = s.arg := rfl
@[simp] theorem setTable_result : (s.setTable t).result = s.result := rfl
@[simp] theorem setTable_err : (s.setTable t).err = s.err := rfl
@[simp] theorem setTable_ecode : (s.setTable t).ecode = s.ecode := rfl
@[simp] theorem setTable_pend : (s.setTable t).pend = s.pend := rfl
@[simp] theorem setTable_program : (s.setTable t).program = s.program := rfl
@[simp] theorem setTable_reads : (s.setTable t).reads = s.reads := rfl
@[simp] theorem setTable_delays : (s.setTable t).delays = s.delays := rfl
@[simp] theorem setTable_issued : (s.setTable t).issued = s.issued := rfl
@[simp] theorem setTable_wait : (s.setTable t).wait = s.wait := rfl
end setTable

section retire
@[simp] theorem retire_table : s.retire.table = s.table := rfl
@[simp] theorem retire_arg : s.retire.arg = s.arg := rfl
@[simp] theorem retire_result : s.retire.result = s.result := rfl
@[simp] theorem retire_err : s.retire.err = s.err := rfl
@[simp] theorem retire_ecode : s.retire.ecode = s.ecode := rfl
@[simp] theorem retire_pend : s.retire.pend = none := rfl
@[simp] theorem retire_program : s.retire.program = s.program := rfl
@[simp] theorem retire_reads : s.retire.reads = s.reads := rfl
@[simp] theorem retire_delays : s.retire.delays = s.delays := rfl
@[simp] theorem retire_issued : s.retire.issued = s.issued := rfl
@[simp] theorem retire_wait : s.retire.wait = s.wait := rfl
end retire

section issue
variable (c : Word)
@[simp] theorem issue_table : (s.issue c).table = s.table := rfl
@[simp] theorem issue_arg : (s.issue c).arg = s.arg := rfl
@[simp] theorem issue_result : (s.issue c).result = s.result := rfl
@[simp] theorem issue_err : (s.issue c).err = s.err := rfl
@[simp] theorem issue_ecode : (s.issue c).ecode = s.ecode := rfl
@[simp] theorem issue_pend : (s.issue c).pend = some ⟨c, s.arg⟩ := rfl
@[simp] theorem issue_program : (s.issue c).program = s.program := rfl
@[simp] theorem issue_reads : (s.issue c).reads = s.reads := rfl
@[simp] theorem issue_delays : (s.issue c).delays = s.delays.tail := rfl
@[simp] theorem issue_issued : (s.issue c).issued = s.issued + 1 := rfl
@[simp] theorem issue_wait : (s.issue c).wait = s.nextDelay := rfl
end issue

section record
variable (v : Word)
@[simp] theorem record_table : (s.record v).table = s.table := rfl
@[simp] theorem record_arg : (s.record v).arg = s.arg := rfl
@[simp] theorem record_result : (s.record v).result = s.result := rfl
@[simp] theorem record_err : (s.record v).err = s.err := rfl
@[simp] theorem record_ecode : (s.record v).ecode = s.ecode := rfl
@[simp] theorem record_pend : (s.record v).pend = s.pend := rfl
@[simp] theorem record_program : (s.record v).program = s.program := rfl
@[simp] theorem record_reads : (s.record v).reads = s.reads ++ [v] := rfl
@[simp] theorem record_delays : (s.record v).delays = s.delays := rfl
@[simp] theorem record_issued : (s.record v).issued = s.issued := rfl
@[simp] theorem record_wait : (s.record v).wait = s.wait := rfl
end record

section takeOp
variable (rest : List HostOp)
@[simp] theorem takeOp_table : (s.takeOp rest).table = s.table := rfl
@[simp] theorem takeOp_arg : (s.takeOp rest).arg = s.arg := rfl
@[simp] theorem takeOp_result : (s.takeOp rest).result = s.result := rfl
@[simp] theorem takeOp_err : (s.takeOp rest).err = s.err := rfl
@[simp] theorem takeOp_ecode : (s.takeOp rest).ecode = s.ecode := rfl
@[simp] theorem takeOp_pend : (s.takeOp rest).pend = s.pend := rfl
@[simp] theorem takeOp_program : (s.takeOp rest).program = rest := rfl
@[simp] theorem takeOp_reads : (s.takeOp rest).reads = s.reads := rfl
@[simp] theorem takeOp_delays : (s.takeOp rest).delays = s.delays := rfl
@[simp] theorem takeOp_issued : (s.takeOp rest).issued = s.issued := rfl
@[simp] theorem takeOp_wait : (s.takeOp rest).wait = s.wait - 1 := rfl
end takeOp

section hostReset
@[simp] theorem hostReset_table : s.hostReset.table = [] := rfl
@[simp] theorem hostReset_arg : s.hostReset.arg = 0 := rfl
@[simp] theorem hostReset_result : s.hostReset.result = 0 := rfl
@[simp] theorem hostReset_err : s.hostReset.err = false := rfl
@[simp] theorem hostReset_ecode : s.hostReset.ecode = .none := rfl
@[simp] theorem hostReset_pend : s.hostReset.pend = none := rfl
@[simp] theorem hostReset_program : s.hostReset.program = s.program := rfl
@[simp] theorem hostReset_reads : s.hostReset.reads = s.reads := rfl
@[simp] theorem hostReset_delays : s.hostReset.delays = s.delays := rfl
@[simp] theorem hostReset_issued : s.hostReset.issued = s.issued := rfl
@[simp] theorem hostReset_wait : s.hostReset.wait = 0 := rfl
end hostReset

section present
variable (c : Word)
@[simp] theorem present_table : (s.present c).table = s.table := rfl
@[simp] theorem present_arg : (s.present c).arg = s.arg := rfl
@[simp] theorem present_result : (s.present c).result = s.result := rfl
@[simp] theorem present_err : (s.present c).err = false := rfl
@[simp] theorem present_ecode : (s.present c).ecode = .none := rfl
@[simp] theorem present_pend : (s.present c).pend = some ⟨c, s.arg⟩ := rfl
@[simp] theorem present_program : (s.present c).program = s.program := rfl
@[simp] theorem present_reads : (s.present c).reads = s.reads := rfl
@[simp] theorem present_delays : (s.present c).delays = s.delays := rfl
@[simp] theorem present_issued : (s.present c).issued = s.issued := rfl
@[simp] theorem present_wait : (s.present c).wait = 0 := rfl
end present

section raiseError
variable (code : ErrorCode)
/-- The first error (60_exceptions.md R93). -/
theorem raiseError_first (h : s.err = false) :
    s.raiseError code = { s with err := true, ecode := code, pend := none } := by simp [raiseError, h]
/-- An error while halted records nothing (60_exceptions.md R94). -/
theorem raiseError_halted (h : s.err = true) : s.raiseError code = { s with pend := none } := by
  simp [raiseError, h]
@[simp] theorem raiseError_err : (s.raiseError code).err = true := by
  unfold raiseError; split <;> simp [*]
theorem raiseError_ecode : (s.raiseError code).ecode = if s.err then s.ecode else code := by
  unfold raiseError; split <;> rfl
@[simp] theorem raiseError_pend : (s.raiseError code).pend = none := by unfold raiseError; split <;> rfl
@[simp] theorem raiseError_table : (s.raiseError code).table = s.table := by unfold raiseError; split <;> rfl
@[simp] theorem raiseError_arg : (s.raiseError code).arg = s.arg := by unfold raiseError; split <;> rfl
@[simp] theorem raiseError_result : (s.raiseError code).result = s.result := by unfold raiseError; split <;> rfl
@[simp] theorem raiseError_program : (s.raiseError code).program = s.program := by unfold raiseError; split <;> rfl
@[simp] theorem raiseError_reads : (s.raiseError code).reads = s.reads := by unfold raiseError; split <;> rfl
@[simp] theorem raiseError_delays : (s.raiseError code).delays = s.delays := by unfold raiseError; split <;> rfl
@[simp] theorem raiseError_issued : (s.raiseError code).issued = s.issued := by unfold raiseError; split <;> rfl
@[simp] theorem raiseError_wait : (s.raiseError code).wait = s.wait := by unfold raiseError; split <;> rfl
end raiseError

end Sys2Proof.Machine.State
end

