-- ==== Sys2Proof/Laws/Table.lean ====
section
/-! SUPPORT. The state table: what a push, a read at a position and the next word are, and that no operation makes
the table longer than 31 words. -/

namespace Sys2Proof.Machine

/-- A full table evicts its oldest word (00_scope.md R10). -/
theorem push_full {t : List Word} (h : t.length = 31) (w : Word) : push t w = t.tail ++ [w] := by
  simp [push, h]

/-- A table that is not full grows (R10). -/
theorem push_not_full {t : List Word} (h : t.length ≠ 31) (w : Word) : push t w = t ++ [w] := by
  simp [push, h]

/-- SIZE after a push saturates at 31 (10_state.md R16). -/
theorem push_length {t : List Word} (h : t.length ≤ 31) (w : Word) :
    (push t w).length = min (t.length + 1) 31 := by
  unfold push
  split
  · simp_all
  · simp_all; omega

theorem push_length_full {t : List Word} (h : t.length = 31) (w : Word) : (push t w).length = 31 := by
  simp [push_length (Nat.le_of_eq h), h]

theorem push_length_le {t : List Word} (h : t.length ≤ 31) (w : Word) : (push t w).length ≤ 31 := by
  rw [push_length h]; omega

/-- A position within the table holds a word (00_scope.md R9). -/
theorem position_eq {t : List Word} {k : Nat} (h1 : 1 ≤ k) (h2 : k ≤ t.length) :
    position t k = some (t[t.length - k]'(by omega)) := by
  simp [position, h1, h2]

/-- No position beyond SIZE holds one (10_state.md R17). -/
theorem position_eq_none_iff {t : List Word} {k : Nat} : position t k = none ↔ k = 0 ∨ t.length < k := by
  unfold position
  split
  · rename_i h
    simp
    omega
  · rename_i h
    simp
    omega

/-- The next word of a full table (41_advance_peek.md R71). -/
theorem nextWord_full {t : List Word} (h : t.length = 31) :
    nextWord t = some (add32 (t[28]'(by omega)) (t[0]'(by omega))) := by
  simp [nextWord, h, position]

/-- There is no next word while SIZE is not 31 (60_exceptions.md R92). -/
theorem nextWord_not_full {t : List Word} (h : t.length ≠ 31) : nextWord t = none := by
  simp [nextWord, h]

theorem nextWord_isSome_iff {t : List Word} : (nextWord t).isSome ↔ t.length = 31 := by
  by_cases h : t.length = 31
  · simp [nextWord_full h, h]
  · simp [nextWord_not_full h, h]

theorem updateTable_length {t : List Word} (h : t.length = 31) : (updateTable t).length = 31 := by
  simp [updateTable, nextWord_full h, push_length_full h]

theorem updates_length (n : Nat) {t : List Word} (h : t.length = 31) : (updates n t).length = 31 := by
  induction n generalizing t with
  | zero => exact h
  | succ n ih => exact ih (updateTable_length h)

theorem updates_succ' (n : Nat) (t : List Word) : updates (n + 1) t = updateTable (updates n t) := by
  induction n generalizing t with
  | zero => rfl
  | succ n ih => exact ih (updateTable t)

@[simp] theorem pmChain_length (n : Nat) (w : Word) : (pmChain n w).length = n := by
  induction n generalizing w with
  | zero => rfl
  | succ n ih => simp [pmChain, ih]

@[simp] theorem seedWords_length (S : Word) : (seedWords S).length = 31 := pmChain_length 31 S

theorem foldl_push_length (ws : List Word) {t : List Word} (h : t.length = 31) : (ws.foldl push t).length = 31 := by
  induction ws generalizing t with
  | nil => exact h
  | cons w ws ih => exact ih (push_length_full h w)

/-- SEED leaves a full table (40_construction.md R59). -/
@[simp] theorem seedTable_length (S : Word) : (seedTable S).length = 31 := by
  unfold seedTable extend
  exact updates_length _ (foldl_push_length _ (seedWords_length S))

end Sys2Proof.Machine
end

