-- ==== Sys2Proof/Laws/Exec.lean ====
section
/-! SUPPORT. What each meaning answers, and, once for all of them, everything a meaning can do. -/

namespace Sys2Proof.Machine

variable (s : State)

theorem exec_nop : exec .nop s = .next s := rfl

theorem exec_advance_full (h : s.table.length = 31) :
    exec .advance s = .next { s with
      table := s.table.tail ++ [add32 (s.table[28]'(by omega)) (s.table[0]'(by omega))]
      result := out (add32 (s.table[28]'(by omega)) (s.table[0]'(by omega))) } := by
  simp [exec, execAdvance, nextWord_full h, push_full h, State.setTable, State.setResult]

theorem exec_peeks_full (h : s.table.length = 31) :
    exec .peeks s = .next (s.setResult (add32 (s.table[28]'(by omega)) (s.table[0]'(by omega)))) := by
  simp [exec, execPeeks, nextWord_full h]

theorem exec_peeko_full (h : s.table.length = 31) :
    exec .peeko s = .next (s.setResult (out (add32 (s.table[28]'(by omega)) (s.table[0]'(by omega))))) := by
  simp [exec, execPeeko, nextWord_full h]

theorem exec_advance_not_full (h : s.table.length ≠ 31) : exec .advance s = .next (s.raiseError .notReady) := by
  simp [exec, execAdvance, nextWord_not_full h]

theorem exec_peeks_not_full (h : s.table.length ≠ 31) : exec .peeks s = .next (s.raiseError .notReady) := by
  simp [exec, execPeeks, nextWord_not_full h]

theorem exec_peeko_not_full (h : s.table.length ≠ 31) : exec .peeko s = .next (s.raiseError .notReady) := by
  simp [exec, execPeeko, nextWord_not_full h]

theorem exec_seed {p : Pending} (h : s.pend = some p) :
    exec .seed s = .next (if p.operand = 0 then s.raiseError .zeroSeed else s.setTable (seedTable p.operand)) := by
  simp [exec, execSeed, State.capturedArg, h]

theorem exec_loadpush {p : Pending} (h : s.pend = some p) :
    exec .loadpush s = .next (s.setTable (push s.table p.operand)) := by
  simp [exec, execLoadpush, State.capturedArg, h]

theorem exec_readt {idx : BitVec 5} {w : Word} (hi : idx.toNat ≤ 30)
    (hw : position s.table (31 - idx.toNat) = some w) : exec (.readt idx) s = .next (s.setResult w) := by
  simp [exec, execReadt, indexPosition, hi, hw]

theorem exec_readt_not_ready {idx : BitVec 5} (hi : idx.toNat ≤ 30) (hw : position s.table (31 - idx.toNat) = none) :
    exec (.readt idx) s = .next (s.raiseError .notReady) := by
  simp [exec, execReadt, indexPosition, hi, hw]

theorem exec_readt_index_31 {idx : BitVec 5} (hi : ¬ idx.toNat ≤ 30) :
    exec (.readt idx) s = .next (s.raiseError .illegalCmd) := by
  simp [exec, execReadt, hi]

/-- Everything a meaning can do: nothing else but to replace the table, to write RESULT, or to raise one of the three
errors of a completion step. -/
theorem exec_cases {i : Instr} {t : State} (h : exec i s = .next t) :
    t = s
    ∨ (∃ w, (i = .peeks ∨ i = .peeko ∨ ∃ idx, i = .readt idx) ∧ t = s.setResult w)
    ∨ (∃ n, i = .advance ∧ s.table.length = 31 ∧ nextWord s.table = some n
        ∧ t = (s.setTable (push s.table n)).setResult (out n))
    ∨ (∃ a, i = .seed ∧ s.capturedArg = some a ∧ a ≠ 0 ∧ t = s.setTable (seedTable a))
    ∨ (∃ a, i = .loadpush ∧ s.capturedArg = some a ∧ t = s.setTable (push s.table a))
    ∨ (∃ code, (code = .illegalCmd ∨ code = .zeroSeed ∨ code = .notReady) ∧ t = s.raiseError code) := by
  cases i with
  | nop => exact .inl (by simpa [exec, execNop] using h.symm)
  | advance =>
    simp only [exec, execAdvance] at h
    split at h
    · rename_i n hn
      have hl : s.table.length = 31 := nextWord_isSome_iff.mp (by simp [hn])
      exact .inr (.inr (.inl ⟨n, rfl, hl, hn, by simpa using h.symm⟩))
    · exact .inr (.inr (.inr (.inr (.inr ⟨.notReady, by simp, by simpa using h.symm⟩))))
  | peeks =>
    simp only [exec, execPeeks] at h
    split at h
    · exact .inr (.inl ⟨_, by simp, by simpa using h.symm⟩)
    · exact .inr (.inr (.inr (.inr (.inr ⟨.notReady, by simp, by simpa using h.symm⟩))))
  | peeko =>
    simp only [exec, execPeeko] at h
    split at h
    · exact .inr (.inl ⟨_, by simp, by simpa using h.symm⟩)
    · exact .inr (.inr (.inr (.inr (.inr ⟨.notReady, by simp, by simpa using h.symm⟩))))
  | seed =>
    simp only [exec, execSeed] at h
    split at h
    · cases h
    · rename_i a ha
      by_cases h0 : a = 0
      · rw [if_pos h0] at h
        exact .inr (.inr (.inr (.inr (.inr ⟨.zeroSeed, by simp, by simpa using h.symm⟩))))
      · rw [if_neg h0] at h
        exact .inr (.inr (.inr (.inl ⟨a, rfl, ha, h0, by simpa using h.symm⟩)))
  | loadpush =>
    simp only [exec, execLoadpush] at h
    split at h
    · cases h
    · rename_i a ha
      exact .inr (.inr (.inr (.inr (.inl ⟨a, rfl, ha, by simpa using h.symm⟩))))
  | readt idx =>
    simp only [exec, execReadt] at h
    split at h
    · split at h
      · exact .inr (.inl ⟨_, by simp, by simpa using h.symm⟩)
      · exact .inr (.inr (.inr (.inr (.inr ⟨.notReady, by simp, by simpa using h.symm⟩))))
    · exact .inr (.inr (.inr (.inr (.inr ⟨.illegalCmd, by simp, by simpa using h.symm⟩))))

/-- With a command pending every meaning answers a next state. -/
theorem exec_next_of_pending (i : Instr) {p : Pending} (h : s.pend = some p) : ∃ t, exec i s = .next t := by
  cases i with
  | nop => exact ⟨_, exec_nop s⟩
  | advance => unfold exec execAdvance; simp only; split <;> exact ⟨_, rfl⟩
  | peeks => unfold exec execPeeks; simp only; split <;> exact ⟨_, rfl⟩
  | peeko => unfold exec execPeeko; simp only; split <;> exact ⟨_, rfl⟩
  | seed => exact ⟨_, exec_seed s h⟩
  | loadpush => exact ⟨_, exec_loadpush s h⟩
  | readt idx =>
    unfold exec execReadt
    simp only
    split
    · split <;> exact ⟨_, rfl⟩
    · exact ⟨_, rfl⟩

end Sys2Proof.Machine
end

