-- ==== Sys2Proof/Laws/PerInstr.lean ====
section
/-! SUPPORT. One lemma per constructor of Instr, for the host's case split. -/

namespace Sys2Proof.Laws.EncodedFields

/-- The encoded command has the operation code and index of the command and no reserved bit (30_encoding.md R46 to
R49), and is a word below 2^9. -/
def Statement (i : Instr) : Prop :=
  opField (encode i) = i.opcode ∧ idxField (encode i) = i.index ∧ rsvField (encode i) = 0
    ∧ (encode i).toNat = i.opcode.toNat + 16 * i.index.toNat

theorem toNat_encode (i : Instr) : (encode i).toNat = i.opcode.toNat + 16 * i.index.toNat := by
  have := i.opcode.isLt
  have := i.index.isLt
  have hi : i.index.toNat <<< 4 % 4294967296 = i.index.toNat <<< 4 := by
    rw [Nat.shiftLeft_eq]; omega
  simp [encode, Nat.mod_eq_of_lt (by omega : i.opcode.toNat < 4294967296),
    Nat.mod_eq_of_lt (by omega : i.index.toNat < 4294967296), hi]
  rw [← Nat.shiftLeft_add_eq_or_of_lt (by omega : i.opcode.toNat < 2 ^ 4), Nat.shiftLeft_eq]
  omega

theorem all_fields (i : Instr) : Statement i :=
  ⟨opField_encode i, idxField_encode i, rsvField_encode i, toNat_encode i⟩

theorem nop : Statement .nop := all_fields _
theorem advance : Statement .advance := all_fields _
theorem peeks : Statement .peeks := all_fields _
theorem peeko : Statement .peeko := all_fields _
theorem seed : Statement .seed := all_fields _
theorem loadpush : Statement .loadpush := all_fields _
theorem readt (idx : BitVec 5) : Statement (.readt idx) := all_fields _

end Sys2Proof.Laws.EncodedFields
end

