-- ==== Sys2Proof/Laws/Window.lean ====
section
/-! SUPPORT. The register window: which register an access reaches, and what reads and writes do. -/

namespace Sys2Proof.Machine

@[simp] theorem windowReg_cmd : windowReg 0x0#4 4 = some .cmd := rfl
@[simp] theorem windowReg_arg : windowReg 0x4#4 4 = some .arg := rfl
@[simp] theorem windowReg_result : windowReg 0x8#4 4 = some .result := rfl
@[simp] theorem windowReg_status : windowReg 0xC#4 4 = some .status := rfl

/-- An access reaches no register iff it is not 4 bytes wide or not aligned (20_memory.md R35). -/
theorem windowReg_eq_none_iff {off : BitVec 4} {n : Nat} : windowReg off n = none ↔ n ≠ 4 ∨ off.toNat % 4 ≠ 0 := by
  unfold windowReg
  split
  · simp_all
  · rename_i h
    simp only [h, iff_false]
    split <;> simp

variable (s : State)

theorem hostRead_bad {off : BitVec 4} {n : Nat} (h : windowReg off n = none) :
    hostRead off n s = (0, s.raiseError .badAccess) := by simp [hostRead, h]

theorem hostRead_reg {off : BitVec 4} {n : Nat} {r : WindowReg} (h : windowReg off n = some r) :
    hostRead off n s = (s.readReg r, s) := by simp [hostRead, h]

theorem hostWrite_bad {off : BitVec 4} {n : Nat} (v : Word) (h : windowReg off n = none) :
    hostWrite off n v s = s.raiseError .badAccess := by simp [hostWrite, h]

theorem hostWrite_reg {off : BitVec 4} {n : Nat} {r : WindowReg} (v : Word) (h : windowReg off n = some r) :
    hostWrite off n v s = s.writeReg v r := by simp [hostWrite, h]

/-- A read changes nothing, or it was a bad access (20_memory.md R36). -/
theorem hostRead_state_cases (off : BitVec 4) (n : Nat) :
    (hostRead off n s).2 = s ∨ (hostRead off n s).2 = s.raiseError .badAccess := by
  unfold hostRead
  split
  · exact .inr rfl
  · exact .inl rfl

/-- Everything a write can do (20_memory.md R37). -/
theorem hostWrite_cases (off : BitVec 4) (n : Nat) (v : Word) :
    hostWrite off n v s = s ∨ hostWrite off n v s = { s with arg := v }
    ∨ (s.err = false ∧ s.pend = none ∧ hostWrite off n v s = s.issue v)
    ∨ (∃ code, (code = .busyViolation ∨ code = .badAccess) ∧ hostWrite off n v s = s.raiseError code) := by
  unfold hostWrite
  split
  · exact .inr (.inr (.inr ⟨.badAccess, .inr rfl, rfl⟩))
  · rename_i r _
    cases r with
    | cmd =>
      simp only [State.writeReg, State.writeCmd]
      split
      · exact .inl rfl
      · split
        · exact .inr (.inr (.inr ⟨.busyViolation, .inl rfl, rfl⟩))
        · rename_i h1 h2
          exact .inr (.inr (.inl ⟨by simpa using h1, by simpa [State.busy] using h2, rfl⟩))
    | arg => exact .inr (.inl rfl)
    | result => exact .inl rfl
    | status => exact .inl rfl

/-- BUSY is bit 0 of STATUS (10_state.md R21). -/
theorem statusWord_bit_zero : s.statusWord.getLsbD 0 = s.busy := by
  simp [State.statusWord]

@[simp] theorem statusWord_getElem_zero : s.statusWord[0] = s.busy := statusWord_bit_zero s

@[simp] theorem readStatus_eq : readStatus s = (s.statusWord, s) := rfl

/-- A POLL whose STATUS read has BUSY = 1 stays in the program. -/
theorem hostPoll_busy {p : Pending} (h : s.pend = some p) :
    hostPoll s = { s.record s.statusWord with program := .poll :: s.program } := by
  unfold hostPoll
  rw [readStatus_eq, if_pos (by rw [statusWord_bit_zero]; simp [State.busy, h])]

/-- A POLL whose STATUS read has BUSY = 0 is done. -/
theorem hostPoll_idle (h : s.pend = none) : hostPoll s = s.record s.statusWord := by
  unfold hostPoll
  rw [readStatus_eq, if_neg (by rw [statusWord_bit_zero]; simp [State.busy, h])]

end Sys2Proof.Machine
end

