-- ==== Sys2Proof/Laws/Step.lean ====
section
/-! SUPPORT. What one step is, for each agent that can move. -/

namespace Sys2Proof.Machine

variable (s : State)

/-- The completion step, where it is enabled (20_memory.md R42). -/
theorem engineStep_enabled {p : Pending} (he : s.err = false) (hp : s.pend = some p) :
    engineStep s = retireOutcome (execute p.word s) := by simp [engineStep, he, hp]

theorem engineStep_halted (he : s.err = true) : engineStep s = .next s := by simp [engineStep, he]

theorem engineStep_idle (hp : s.pend = none) : engineStep s = .next s := by simp [engineStep, hp]

theorem execute_legal {c : Word} {i : Instr} (h : decode c = .ok i) : execute c s = exec i s := by
  simp [execute, h]

theorem execute_illegal {c : Word} {e : DecodeReject} (h : decode c = .error e) :
    execute c s = .next (s.raiseError .illegalCmd) := by simp [execute, h]

theorem execute_next_of_pending (c : Word) {p : Pending} (h : s.pend = some p) : ∃ t, execute c s = .next t := by
  unfold execute
  split
  · exact exec_next_of_pending s _ h
  · exact ⟨_, rfl⟩

/-- The completion step always answers a next state. -/
theorem engineStep_next : ∃ t, engineStep s = .next t := by
  unfold engineStep
  split
  · exact ⟨_, rfl⟩
  · split
    · exact ⟨_, rfl⟩
    · rename_i p hp
      obtain ⟨t, ht⟩ := execute_next_of_pending s p.word hp
      exact ⟨t.retire, by simp [ht, retireOutcome]⟩

/-- Everything a completion step can do. -/
theorem engineStep_cases {t : State} (h : engineStep s = .next t) :
    t = s
    ∨ (s.err = false ∧ ∃ p, s.pend = some p ∧
        ((∃ i u, decode p.word = .ok i ∧ exec i s = .next u ∧ t = u.retire)
        ∨ ((∃ e, decode p.word = .error e) ∧ t = s.raiseError .illegalCmd))) := by
  unfold engineStep at h
  split at h
  · exact .inl (by simpa using h.symm)
  · rename_i he
    split at h
    · exact .inl (by simpa using h.symm)
    · rename_i p hp
      refine .inr ⟨by simpa using he, p, hp, ?_⟩
      cases hd : decode p.word with
      | ok i =>
        rw [execute_legal s hd] at h
        obtain ⟨u, hu⟩ := exec_next_of_pending s i hp
        rw [hu] at h
        exact .inl ⟨i, u, rfl, hu, by simpa [retireOutcome] using h.symm⟩
      | error e =>
        rw [execute_illegal s hd] at h
        refine .inr ⟨⟨e, rfl⟩, ?_⟩
        have ht : t = (s.raiseError .illegalCmd).retire := by simpa [retireOutcome] using h.symm
        rw [ht]
        unfold State.raiseError State.retire
        split <;> rfl

theorem completionEnabled_iff : s.completionEnabled = true ↔ s.err = false ∧ ∃ p, s.pend = some p := by
  simp only [State.completionEnabled, State.busy, Bool.and_eq_true, Bool.not_eq_true', Option.isSome_iff_exists]
  exact And.comm

/-- Which agent moves, and how. -/
theorem step_cases {t : State} (h : step s = .next t) :
    (s.mover = .engine ∧ s.completionEnabled = true ∧ engineStep s = .next t)
    ∨ (∃ op rest, s.mover = .host op rest ∧ s.program = op :: rest ∧ t = hostStep op rest s)
    ∨ (s.mover = .idle ∧ s.program = [] ∧ s.completionEnabled = false ∧ t = s) := by
  unfold step agentStep at h
  cases hp : s.program with
  | nil =>
    cases hc : s.completionEnabled with
    | true =>
      have hm : s.mover = .engine := by simp [State.mover, hp, hc]
      rw [hm] at h
      exact .inl ⟨hm, rfl, h⟩
    | false =>
      have hm : s.mover = .idle := by simp [State.mover, hp, hc]
      rw [hm] at h
      exact .inr (.inr ⟨hm, rfl, rfl, by simpa using h.symm⟩)
  | cons op rest =>
    by_cases hc : (s.completionEnabled && s.wait == 0) = true
    · have hm : s.mover = .engine := by simp [State.mover, hp, hc]
      rw [hm] at h
      exact .inl ⟨hm, by simp_all, h⟩
    · have hm : s.mover = .host op rest := by simp [State.mover, hp, hc]
      rw [hm] at h
      exact .inr (.inl ⟨op, rest, hm, rfl, by simpa using h.symm⟩)

theorem step_engine (h : s.mover = .engine) : step s = engineStep s := by simp [step, agentStep, h]

theorem step_host {op : HostOp} {rest : List HostOp} (h : s.mover = .host op rest) :
    step s = .next (hostStep op rest s) := by simp [step, agentStep, h]

theorem step_idle (h : s.mover = .idle) : step s = .next s := by simp [step, agentStep, h]

@[simp] theorem runSteps_zero : runSteps 0 s = .next s := rfl

/-- A run begins with its first step. -/
theorem runSteps_succ {u : State} (n : Nat) (h : step s = .next u) : runSteps (n + 1) s = runSteps n u := by
  simp only [runSteps, h]

/-- The engine moves where its completion step is enabled and due. -/
theorem mover_engine {p : Pending} (he : s.err = false) (hp : s.pend = some p) (hd : s.program = [] ∨ s.wait = 0) :
    s.mover = .engine := by
  unfold State.mover
  split <;> simp_all [State.completionEnabled, State.busy]

/-- The host moves where it has an operation and no completion step is due. -/
theorem mover_host {op : HostOp} {rest : List HostOp} (h : s.program = op :: rest)
    (hn : s.pend = none ∨ s.err = true ∨ s.wait ≠ 0) : s.mover = .host op rest := by
  rcases hn with hn | hn | hn <;> simp [State.mover, h, State.completionEnabled, State.busy, hn]

end Sys2Proof.Machine
end

