-- ==== Sys2Proof/Machine/Assembler.lean ====
section
/-! DEFINITION. The text of a host program (30_encoding.md R56 to R58), read line by line into host operations. No
behaviour of the engine depends on it (92_eei_decisions.md D11). -/

namespace Sys2Proof.Machine

/-- A token read so far, its letters newest first; an empty one counts for nothing. -/
def flushToken (cur : List Char) : List (List Char) := if cur.isEmpty then [] else [cur.reverse]

/-- The tokens of a line: a `;` starts a comment, spaces and commas separate (R56). -/
def tokensFrom (cur : List Char) : List Char → List (List Char)
  | [] => flushToken cur
  | c :: cs =>
    if c = ';' then flushToken cur
    else if c = ' ' ∨ c = ',' then flushToken cur ++ tokensFrom [] cs
    else tokensFrom (c :: cur) cs

/-- A decimal digit or a hex digit. -/
def digitOf (c : Char) : Option Nat :=
  if '0'.toNat ≤ c.toNat ∧ c.toNat ≤ '9'.toNat then some (c.toNat - '0'.toNat)
  else if 'A'.toNat ≤ c.toNat ∧ c.toNat ≤ 'F'.toNat then some (c.toNat - 'A'.toNat + 10)
  else if 'a'.toNat ≤ c.toNat ∧ c.toNat ≤ 'f'.toNat then some (c.toNat - 'a'.toNat + 10)
  else none

/-- Digits to the given radix, most significant first, onto the number read so far. -/
def digitsFrom (radix acc : Nat) : List Char → Option Nat
  | [] => some acc
  | c :: cs =>
    match digitOf c with
    | some d => if d < radix then digitsFrom radix (acc * radix + d) cs else none
    | none => none

/-- A number: decimal, or hex after `0x` (R56). -/
def numberOf : List Char → Option Nat
  | [] => none
  | ['0', 'x'] => none
  | '0' :: 'x' :: ds => digitsFrom 16 0 ds
  | ds => digitsFrom 10 0 ds

/-- A 32-bit word. -/
def wordOf (t : List Char) : Option Word :=
  match numberOf t with
  | some n => if n < 2 ^ 32 then some (BitVec.ofNat 32 n) else none
  | none => none

/-- READT's index: 0 to 30 (R56). The rule calls it "a decimal" and then says that numbers are decimal or hex; that a
hex index (`READT 0x1E`) is read too is the model's choice (log 15). -/
def indexOf (t : List Char) : Option (BitVec 5) :=
  match numberOf t with
  | some n => if n ≤ 30 then some (BitVec.ofNat 5 n) else none
  | none => none

/-- The words of LOADTABLE, one a token. -/
def wordsOf : List (List Char) → Option (List Word)
  | [] => some []
  | t :: ts =>
    match wordOf t, wordsOf ts with
    | some w, some ws => some (w :: ws)
    | _, _ => none

/-- A command mnemonic: it names the command word of R51. -/
def mnemonicOf : List (List Char) → Option Instr
  | [['N', 'O', 'P']] => some .nop
  | [['A', 'D', 'V', 'A', 'N', 'C', 'E']] => some .advance
  | [['P', 'E', 'E', 'K', 'S']] => some .peeks
  | [['P', 'E', 'E', 'K', 'O']] => some .peeko
  | [['S', 'E', 'E', 'D']] => some .seed
  | [['L', 'O', 'A', 'D', 'P', 'U', 'S', 'H']] => some .loadpush
  | [['R', 'E', 'A', 'D', 'T'], j] => (indexOf j).map .readt
  | _ => none

/-- What `WR CMD` writes: a word, or the word a mnemonic names (log 15). -/
def commandWordOf (ts : List (List Char)) : Option Word :=
  match mnemonicOf ts, ts with
  | some i, _ => some (encode i)
  | none, [t] => wordOf t
  | none, _ => none

/-- A pseudo-instruction (R57). LOADTABLE takes the 31 words of a table. -/
def pseudoOf : List (List Char) → Option Pseudo
  | [['N', 'O', 'P']] => some .nop
  | [['A', 'D', 'V', 'A', 'N', 'C', 'E']] => some .advance
  | [['P', 'E', 'E', 'K', 'S']] => some .peeks
  | [['P', 'E', 'E', 'K', 'O']] => some .peeko
  | [['S', 'E', 'E', 'D'], s] => (wordOf s).map .seed
  | [['L', 'O', 'A', 'D', 'P', 'U', 'S', 'H'], w] => (wordOf w).map .loadpush
  | [['R', 'E', 'A', 'D', 'T'], j] => (indexOf j).map .readt
  | ['L', 'O', 'A', 'D', 'T', 'A', 'B', 'L', 'E'] :: ts =>
    if ts.length = 31 then (wordsOf ts).map .loadtable else none
  | [['T', 'A', 'B', 'L', 'E']] => some .table
  | _ => none

/-- The operations of a line's tokens (R56, R57); none for a line that is neither. -/
def operationsOf (ts : List (List Char)) : Option (List HostOp) :=
  match ts with
  | [] => some []
  | ['W', 'R'] :: ['C', 'M', 'D'] :: w => (commandWordOf w).map fun v => [wrCmd v]
  | [['W', 'R'], ['A', 'R', 'G'], w] => (wordOf w).map fun v => [wrArg v]
  | [['W', 'R'], ['R', 'E', 'S', 'U', 'L', 'T'], w] => (wordOf w).map fun v => [wrResult v]
  | [['W', 'R'], ['S', 'T', 'A', 'T', 'U', 'S'], w] => (wordOf w).map fun v => [wrStatus v]
  | [['R', 'D'], ['C', 'M', 'D']] => some [rdCmd]
  | [['R', 'D'], ['A', 'R', 'G']] => some [rdArg]
  | [['R', 'D'], ['R', 'E', 'S', 'U', 'L', 'T']] => some [rdResult]
  | [['R', 'D'], ['S', 'T', 'A', 'T', 'U', 'S']] => some [rdStatus]
  | [['P', 'O', 'L', 'L']] => some [.poll]
  | [['R', 'E', 'S', 'E', 'T']] => some [.reset]
  | _ => (pseudoOf ts).map Pseudo.expand

/-- A listing's step number, `<step>:` (R58). -/
def isStepLabel (t : List Char) : Bool :=
  match t.reverse with
  | ':' :: ds => !ds.isEmpty && ds.all fun c => '0'.toNat ≤ c.toNat && c.toNat ≤ '9'.toNat
  | _ => false

/-- One line of a program or of a listing (R56, R58). -/
def assembleLine (line : List Char) : Option (List HostOp) :=
  match tokensFrom [] line with
  | t :: ts => if isStepLabel t then operationsOf ts else operationsOf (t :: ts)
  | [] => some []

/-- A program: its lines in order. -/
def assemble : List (List Char) → Option (List HostOp)
  | [] => some []
  | l :: ls =>
    match assembleLine l, assemble ls with
    | some ops, some rest => some (ops ++ rest)
    | _, _ => none

end Sys2Proof.Machine
end

