-- ==== Sys2Proof/Tests/Slice0.lean ====
section
/-! SUPPORT. Tests. Every expected value is the spec's own: 95_test_vectors.md (named at each test) or a word written
out from 30_encoding.md R46 and R51. The second part shows, for each statement with hypotheses, a state that meets
them. -/

namespace Sys2Proof.Tests

open Sys2Proof.Machine

/-! ## Helpers -/

/-- A field of the next state. -/
def nextField {α : Type} (f : State → α) : Host.Outcome State Fault Refusal → Option α
  | .next t => some (f t)
  | .fault _ => none
  | .refused _ => none

/-- `n` words 0, 1, 2, … -/
def counting (n : Nat) : List Word := (List.range n).map (BitVec.ofNat 32)

/-- The reset state with a table. -/
def withTable (t : List Word) : State := { State.reset with table := t }

/-- The reset state with a table and a pending command. -/
def pending (t : List Word) (c a : Word) : State := { withTable t with pend := some ⟨c, a⟩ }

/-- A full table whose `T[28]` and `T[0]` are given (95_test_vectors.md section 3, A3 to A9). -/
def cornerTable (x y : Word) : List Word := y :: (List.replicate 27 0x55 ++ [x, 0x66, 0x77])

/-! ## Well-formedness: an ill-formed term for each check -/

theorem test_readt_index_31_is_ill_formed : Instr.wellFormed (.readt 31) = false := by decide
theorem test_readt_index_30_is_well_formed : Instr.wellFormed (.readt 30) = true := by decide

/-! ## Decoding: words written out bit by bit, RSV (23 bits), IDX (5 bits), OP (4 bits) -/

theorem test_decode_nop : decode 0b00000000000000000000000_00000_0000 = .ok .nop := rfl
theorem test_decode_advance : decode 0b00000000000000000000000_00000_0001 = .ok .advance := rfl
theorem test_decode_peeks : decode 0b00000000000000000000000_00000_0010 = .ok .peeks := rfl
theorem test_decode_peeko : decode 0b00000000000000000000000_00000_0011 = .ok .peeko := rfl
theorem test_decode_seed : decode 0b00000000000000000000000_00000_0100 = .ok .seed := rfl
theorem test_decode_loadpush : decode 0b00000000000000000000000_00000_0101 = .ok .loadpush := rfl
theorem test_decode_readt_21 : decode 0b00000000000000000000000_10101_0110 = .ok (.readt 21) := rfl
theorem test_decode_readt_30 : decode 0b00000000000000000000000_11110_0110 = .ok (.readt 30) := rfl
theorem test_encode_readt_21 : encode (.readt 21) = 0b00000000000000000000000_10101_0110 := by decide

/-- 95_test_vectors.md section 5: words that are not legal. -/
theorem test_illegal_words :
    [0x1F6, 0x7, 0x8, 0xF, 0x10, 0x14, 0x15, 0x200, 0x206, 0x80000001, 0xFFFFFFFF, 0x1EF].map legal
      = List.replicate 12 false := by decide

theorem test_table_word_readt : decodeTableWord 32 0x1E6 = some (.readt 30) := by decide
theorem test_table_word_too_long : decodeTableWord 40 0x100000000 = none := by decide

/-! ## The commands -/

/-- V1, step 2: the last words of the expansion of seed 1. -/
theorem test_seed_expansion : (seedWords 1).drop 28 = [0x53B39DD6, 0x353F7788, 0x59C09D07] := by decide +kernel

/-- V1, step 4: the table SEED 1 leaves. -/
theorem test_seed_one : nextField State.table (exec .seed (pending [7, 8, 9] 4 1)) = some
    [0x3E01511E, 0x4E508AAA, 0x61048C05, 0xF5500617, 0x846B7115, 0x6A19892C, 0x896A97AF, 0xDB48F936,
     0x14898454, 0x37FFD106, 0xB58BFF9C, 0x59E17104, 0xCF918A49, 0x09378C83, 0x52C7A471, 0x8D293EA9,
     0x1F4FC301, 0xC3DB71BE, 0x39B44E1C, 0xF8A44EF9, 0x4C8B80B1, 0x19EDC328, 0x87BF4BDD, 0xC9B240E5,
     0xE9EE4B1B, 0x4382AEE7, 0x535B6B41, 0xF3BEC5DA, 0x991539B1, 0x16A5BCE3, 0x6774A4CD] := by decide +kernel

/-- V5: a seed whose high bit is set is read signed. -/
theorem test_seed_high_bit : ((seedTable 0xDEADBEEF).take 1, (seedTable 0xDEADBEEF).drop 30)
    = ([0xB0316CA9], [0xAB5E9F5D]) := by decide +kernel

/-- V10: the zero seed; STATUS 0x122. -/
theorem test_seed_zero_status : nextField State.statusWord (engineStep (pending [0x12345678] 4 0)) = some 0x122 := by
  decide

/-- V11 row 5: a full table evicts word 0. -/
theorem test_loadpush_full : nextField State.table (exec .loadpush (pending (counting 31) 5 0xFFFFFFFF))
    = some ((counting 31).tail ++ [0xFFFFFFFF]) := by decide

/-- V11 row 1: STATUS after the first LOADPUSH. -/
theorem test_loadpush_first_status :
    nextField State.statusWord (engineStep (pending [] 5 0x12345678)) = some 0x100 := by decide

/-- A4: a wrap to 0, the carry lost. -/
theorem test_advance_wraps : nextField (fun t => (t.table.drop 27, t.result)) (exec .advance (withTable (cornerTable 1 0xFFFFFFFF)))
    = some ([1, 0x66, 0x77, 0], 0) := by decide

/-- A9: RESULT bit 30 is bit 31 of the word. -/
theorem test_advance_output : nextField State.result (exec .advance (withTable (cornerTable 0x7FFFFFFF 1)))
    = some 0x40000000 := by decide

/-- A8: PEEKS keeps bit 0. -/
theorem test_peeks_keeps_low_bit : nextField State.result (exec .peeks (withTable (cornerTable 3 0))) = some 3 := by decide

/-- A8: PEEKO drops bit 0. -/
theorem test_peeko_drops_low_bit : nextField State.result (exec .peeko (withTable (cornerTable 3 0))) = some 1 := by decide

/-- A11: PEEKO with SIZE = 30; STATUS 0x1E32. -/
theorem test_peeko_not_ready : nextField State.statusWord (engineStep (pending (counting 30) 3 0)) = some 0x1E32 := by decide

/-- T8: READT 29 with SIZE = 2 reads the older word. -/
theorem test_readt_partial : nextField State.result (exec (.readt 29) (withTable [0xA, 0xB])) = some 0xA := by decide

/-- T9: READT 28 with SIZE = 2; STATUS 0x232. -/
theorem test_readt_not_ready : nextField State.statusWord (engineStep (pending [0xA, 0xB] 0x1C6 0)) = some 0x232 := by decide

/-- T11: NOP after reset. -/
theorem test_nop_status : nextField State.statusWord (engineStep (pending [] 0 0)) = some 0 := by decide

/-- A12: a word with RSV bit 9 set, on a full table; STATUS 0x1F12. -/
theorem test_illegal_status : nextField State.statusWord (engineStep (pending (counting 31) 0x202 0)) = some 0x1F12 := by
  decide

/-! ## The host -/

/-- H5: a byte read of STATUS returns 0 and raises BAD_ACCESS. -/
theorem test_byte_read : ((hostRead 0xC 1 State.reset).1, (hostRead 0xC 1 State.reset).2.statusWord) = (0, 0x52) := by
  decide

/-- H6: a 4-byte write at offset 6. -/
theorem test_unaligned_write : (hostWrite 0x6 4 0 State.reset).statusWord = 0x52 := by decide

/-- H8: the second of two CMD writes with no completion step between. -/
theorem test_busy_violation : nextField State.statusWord
    (step { pending [] 0 0 with program := [wrCmd 0], wait := 1 }) = some 0x42 := by decide

/-- H10: STATUS while an ADVANCE is pending. -/
theorem test_status_busy : nextField State.reads (step { pending [] 1 0 with program := [rdStatus], wait := 1 })
    = some [1] := by decide

/-- H15: RESET leaves the halt. -/
theorem test_reset_leaves_halt : nextField State.statusWord
    (step { State.reset with err := true, ecode := .notReady, program := [.reset] }) = some 0 := by decide

/-- H16: RESET abandons a pending SEED. -/
theorem test_reset_abandons_seed : nextField (fun t => (t.pend, t.size))
    (step { pending [] 4 1 with program := [.reset], wait := 1 }) = some (none, 0) := by decide

/-- A word presented for the next step runs: READT 30 on a full table. -/
theorem test_fetch_word_runs :
    nextField State.result (step ((withTable (counting 31)).withFetchWord 32 0x1E6)) = some 30 := by decide

/-- Port `size` code 3 is a bad access (70_reset_and_hazards.md R123). -/
theorem test_port_reserved_size :
    (portsNext ⟨false, true, true, 0x4, 3, 0x1234⟩ State.reset).statusWord = 0x52 := by decide

/-! ## The text of a program -/

/-- A line of listing P1, and R51's word of READT 30. -/
theorem test_assemble_listing_line :
    assembleLine " 14: WR CMD, 0x000001E6       ; STATUS after: 0x00001F01".toList = some [wrCmd 0x1E6] := by decide

theorem test_assemble_pseudo : assembleLine "SEED 42 ; V2".toList = some [wrArg 42, wrCmd 4, .poll] := by decide

theorem test_assemble_readt_31 : assembleLine "READT 31".toList = none := by decide

/-! ## Witnesses: states that meet the hypotheses of the statements -/

theorem witness_DecodeOfEncode : Instr.wellFormed (.readt 0) = true ∧ Instr.wellFormed (.readt 30) = true := by decide

theorem witness_EncodeOfDecode : decode 0x1E6 = .ok (.readt 30) := rfl

theorem witness_LegalWordsAndExecute : LegalWord 0x0 ∧ LegalWord 0x1 ∧ LegalWord 0x2 ∧ LegalWord 0x3 ∧ LegalWord 0x4
    ∧ LegalWord 0x5 ∧ LegalWord 0x6 ∧ LegalWord 0x1E6 ∧ ¬ LegalWord 0x1F6 ∧ ¬ LegalWord 0x7 ∧ ¬ LegalWord 0x15
    ∧ ¬ LegalWord 0x200 := by decide

theorem witness_IllegalWordCompletion : (pending [] 0x1F6 0).err = false
    ∧ (pending [] 0x1F6 0).pend = some ⟨0x1F6, 0⟩ ∧ ¬ LegalWord 0x1F6 := by decide

theorem witness_ResetAtAnyTime_idle : ({ State.reset with program := [.reset] }).program = [HostOp.reset]
    ∧ ({ State.reset with program := [.reset] }).pend = none := by decide

theorem witness_ResetAtAnyTime_halted :
    ({ State.reset with program := [.reset], err := true, ecode := .notReady }).err = true := by decide

theorem witness_ResetAtAnyTime_busy : ({ pending [] 4 1 with program := [.reset], wait := 1 }).wait ≠ 0 := by decide

theorem witness_StatusLayout : (withTable (counting 31)).table.length ≤ 31 ∧ State.reset.table.length ≤ 31 := by decide

theorem witness_BadAccess : BadAccess 0xC 1 ∧ BadAccess 0x6 4 ∧ BadAccess 0x1 2 ∧ BadAccess 0xF 4 ∧ BadAccess 0x0 8
    ∧ ¬ BadAccess 0x0 4 ∧ ¬ BadAccess 0x4 4 ∧ ¬ BadAccess 0x8 4 ∧ ¬ BadAccess 0xC 4 := by decide

theorem witness_HostWriteRule : ({ State.reset with err := true, ecode := .badAccess }).err = true
    ∧ (pending [] 0 0).err = false ∧ (pending [] 0 0).pend ≠ none ∧ State.reset.err = false ∧ State.reset.pend = none := by
  decide

theorem witness_BusyViolationStep :
    ({ pending [] 0 0 with program := [wrCmd 1], wait := 1 }).program = [.write 0x0#4 4 1]
    ∧ (pending [] 0 0).err = false ∧ (pending [] 0 0).pend ≠ none
    ∧ ({ pending [] 0 0 with program := [wrCmd 1], wait := 1 }).wait ≠ 0 := by decide

/-- The first and the last address of the window, and the first above it. -/
theorem witness_WindowAddressing : Config.base ≤ Config.base ∧ Config.base < Config.base + 16
    ∧ Config.base + 15 < Config.base + 16 ∧ ¬ (Config.base ≤ Config.base + 16 ∧ Config.base + 16 < Config.base + 16) := by
  omega

theorem witness_PortAccess : (⟨false, true, false, 0xC, 2, 0⟩ : PortsIn).rst = false
    ∧ (⟨false, true, false, 0xC, 2, 0⟩ : PortsIn).addr.extractLsb' 0 2 = 0
    ∧ (⟨false, true, true, 0xE, 2, 0⟩ : PortsIn).addr.extractLsb' 0 2 ≠ 0
    ∧ (⟨false, true, true, 0xC, 3, 0⟩ : PortsIn).size ≠ 2 ∧ (⟨false, false, true, 0, 0, 0⟩ : PortsIn).sel = false := by
  decide

theorem witness_ErrorsArePrecise : (pending [] 1 0).err = false
    ∧ nextField State.err (engineStep (pending [] 1 0)) = some true := by decide

theorem witness_HaltedEngine : ({ State.reset with err := true, ecode := .notReady }).err = true := by decide

theorem witness_OnlyResetClearsErr :
    nextField State.err (step { State.reset with err := true, ecode := .notReady, program := [.reset] }) = some false
    ∧ nextField State.err (step (pending [] 1 0)) = some true := by decide

theorem witness_SizeNeverLowered : (pending (counting 31) 5 0).size ≤ 31
    ∧ nextField State.size (step (pending (counting 31) 5 0)) = some 31
    ∧ nextField State.size (step (pending (counting 30) 5 0)) = some 31 := by decide

theorem witness_WritersOfEachRegister : nextField State.table (engineStep (pending [] 5 1)) = some [1]
    ∧ nextField State.result (engineStep (pending [7] 0x1E6 0)) = some 7 ∧ wrArg 1 ≠ .reset := by decide

theorem witness_NopEffect : (pending [] 0 0).err = false ∧ (pending [] 0 0).pend = some ⟨0x00000000, 0⟩ := by decide

/-- For AdvanceEffect, PeekEffect, OutputShifterRange, AdvanceShiftsPositions, CarryIdentity and PushedWordParity. -/
theorem witness_full_table : (withTable (cornerTable 1 0xFFFFFFFF)).table.length = 31
    ∧ (withTable (counting 30)).table.length ≠ 31 ∧ (withTable (counting 30)).err = false := by decide

theorem witness_LoadpushEffect : (pending (counting 31) 5 1).pend = some ⟨5, 1⟩
    ∧ (pending (counting 31) 5 1).table.length = 31 ∧ (pending (counting 30) 5 1).table.length < 31 := by decide

theorem witness_ConstructionNeedsCapturedOperand : State.reset.pend = none := by decide

theorem witness_ReadtEffect : 31 - (0 : BitVec 5).toNat ≤ (withTable (counting 31)).table.length
    ∧ 31 - (30 : BitVec 5).toNat ≤ (withTable [5]).table.length
    ∧ (withTable [5]).table.length < 31 - (29 : BitVec 5).toNat ∧ (withTable []).table.length < 31 - (30 : BitVec 5).toNat
    ∧ (31 : BitVec 5).toNat = 31 ∧ (withTable []).err = false := by decide

theorem witness_ZeroSeedRefused : (pending [] 4 0).err = false ∧ (pending [] 4 0).pend = some ⟨0x00000004, 0⟩ := by decide

theorem witness_SeedThenAdvances : (1 : Word) ≠ 0 ∧ (pending [] 4 1).pend = some ⟨4, 1⟩
    ∧ (pending [] 4 1).err = false := by decide

theorem witness_RemainderReadings : Int.tmod (16807 * (0xDEADBEEF : Word).toInt) 2147483647 < 0
    ∧ 0 ≤ Int.tmod (16807 * (0x7FFFFFFF : Word).toInt) 2147483647
    ∧ (seedWords 1)[0]? = some 1 ∧ (seedWords 1)[1]? = some 16807 := by decide +kernel

theorem witness_ExpansionRanges : (0x7FFFFFFF : Word) ≠ 0 ∧ (seedWords 0x7FFFFFFF)[1]? = some 0
    ∧ (seedWords 0x80000001)[1]? = some 0 ∧ (seedWords 1)[30]? = some 0x59C09D07 := by decide +kernel

/-- For RecurrenceOverAdvances, PeekAgreesWithAdvance and TableView. -/
theorem witness_Ready : Ready (withTable (counting 31)) := by decide

theorem witness_LeavesTable : LeavesTable ⟨0, 0⟩ ∧ LeavesTable ⟨2, 0⟩ ∧ LeavesTable ⟨3, 0⟩ ∧ LeavesTable ⟨0x6, 0⟩
    ∧ LeavesTable ⟨0x1E6, 0⟩ :=
  ⟨.inl rfl, .inr (.inl rfl), .inr (.inr (.inl rfl)), .inr (.inr (.inr ⟨0, rfl⟩)), .inr (.inr (.inr ⟨30, rfl⟩))⟩

theorem witness_CommandDeterminism : (withTable [1]).table = ({ withTable [1] with result := 9, arg := 3 }).table
    ∧ (withTable [1]).err = false ∧ (withTable [1]).ecode = .none := by decide

theorem witness_LoadTableRoundTrip : (withTable (counting 3)).table.length ≤ 31 ∧ (withTable (counting 3)).err = false
    ∧ (counting 31).length = 31 ∧ (counting 31)[(30 : BitVec 5).toNat]? = some 30 := by decide

theorem witness_NotReadyExactly : (pending (counting 30) 1 0).table.length ≤ 31
    ∧ (pending (counting 30) 1 0).err = false ∧ (pending (counting 30) 1 0).pend = some ⟨1, 0⟩
    ∧ decode 1 = .ok .advance ∧ decode 0x6 = .ok (.readt 0) ∧ (0 : BitVec 5).toNat < 31 - (pending (counting 30) 1 0).size :=
  ⟨by decide, by decide, by decide, rfl, rfl, by decide⟩

theorem witness_AllZeroTable : (withTable (List.replicate 31 0)).table = List.replicate 31 0
    ∧ (withTable (List.replicate 31 0)).err = false := by decide

theorem witness_CommandFrame : exec .nop State.reset = .next State.reset := rfl

theorem witness_same_generator :
    sameGenerator (withTable (counting 31)) { withTable (counting 31) with result := 5, arg := 7 } :=
  ⟨by decide, by decide, fun _ _ => rfl⟩

theorem witness_StepRunsDecodedCommand : (pending [] 0x1E6 0).err = false
    ∧ (pending [] 0x1E6 0).pend = some ⟨0x1E6, 0⟩ ∧ (pending [] 0x1E6 0).program = []
    ∧ ({ pending [] 0x1E6 0 with program := [rdArg] }).wait = 0 ∧ decode 0x1E6 = .ok (.readt 30) :=
  ⟨by decide, by decide, by decide, by decide, rfl⟩

theorem witness_IdleHoldsState : State.reset.program = [] ∧ State.reset.pend = none
    ∧ ({ State.reset with err := true, ecode := .notReady }).err = true := by decide

theorem witness_StepKeepsConsistent : Consistent State.reset
    ∧ Consistent { withTable (counting 31) with err := true, ecode := .badAccess } := by decide

/-- For CompletionAlwaysComes and PollTerminates. -/
theorem witness_completion_enabled : ({ pending [] 0 0 with program := [.poll], wait := 2 }).completionEnabled = true
    ∧ ({ pending [] 0 0 with program := [.poll], wait := 2 }).program = [HostOp.poll] := by decide

theorem witness_EarlyRead : ({ withTable (counting 31) with
      program := [wrCmd 1, rdResult], delays := [0] }).delays = 0 :: []
    ∧ ({ withTable (counting 31) with program := [wrCmd 1, rdStatus], delays := [1] }).program
        = [.write 0x0#4 4 1, .read 0xC#4 4]
    ∧ (withTable (counting 31)).err = false ∧ (withTable (counting 31)).pend = none
    ∧ nextField State.result (runCommand ⟨1, 0⟩ (withTable (counting 31))) = some 14 := by decide

/-- For PseudoProgramsNeverViolate and PseudoProgramsRefineAtomicCommands. -/
theorem witness_pseudo_program :
    ({ State.reset with program := expandAll [.seed 1, .advance] }).program = expandAll [.seed 1, .advance] ++ []
    ∧ State.reset.pend = none ∧ State.reset.ecode ≠ .busyViolation ∧ State.reset.ecode ≠ .badAccess := by decide

/-- For StepKeepsPollDiscipline: a state between a CMD write and the end of its POLL. -/
theorem witness_StepKeepsPollDiscipline :
    PollDiscipline { pending (counting 31) 1 0 with program := [.poll, rdResult], wait := 2 } :=
  ⟨⟨[.advance], [wrCmd 1], by decide⟩, .inr ⟨_, rfl⟩, by decide, by decide⟩

theorem witness_LatencyParameters : ¬ LegalWord 0x7 := by decide

end Sys2Proof.Tests
end

/-! SUPPORT. What one step can do to the spec state, said once (`step_effect`), and the statements of 10_state.md that
follow from it: the invariant, the sticky ERR and the bound of SIZE. Beside them the frame of every command and the
layout of STATUS. -/

namespace Sys2Proof.Machine

variable {s t : State}

/-! ## The same spec state -/

theorem sameSpecState_of_eq (h : t = s) : SameSpecState t s := by
  subst h
  exact ⟨rfl, rfl, rfl, rfl, rfl, rfl⟩

theorem sameSpecState_record (s : State) (v : Word) : SameSpecState (s.record v) s :=
  ⟨rfl, rfl, rfl, rfl, rfl, rfl⟩

/-- An error looks at nothing that taking an operation from the program changes. -/
theorem raiseError_takeOp (s : State) (rest : List HostOp) (code : ErrorCode) :
    (s.takeOp rest).raiseError code = (s.raiseError code).takeOp rest := by
  cases he : s.err <;> simp [State.raiseError, State.takeOp, he]

/-! ## What a host operation can do -/

/-- What a host operation other than RESET can do to the spec state (20_memory.md R36, R37, 70_reset_and_hazards.md
R122): nothing, an ARG write, the issue of a command by an engine that is neither halted nor busy, or an error of the
host. -/
inductive AccessEffect (s t : State) : Prop where
  | unchanged (same : SameSpecState t s)
  | argWritten (v : Word) (same : SameSpecState t { s with arg := v })
  | issued (c : Word) (running : s.err = false) (free : s.pend = none) (same : SameSpecState t (s.issue c))
  | error (code : ErrorCode) (isHostError : code = .busyViolation ∨ code = .badAccess)
      (same : SameSpecState t (s.raiseError code))

/-- A recorded read leaves the spec state alone, or it was a bad access. -/
theorem accessEffect_record_hostRead (off : BitVec 4) (n : Nat) (v : Word) :
    AccessEffect s ((hostRead off n s).2.record v) := by
  obtain h | h := hostRead_state_cases s off n
  · rw [h]; exact .unchanged (sameSpecState_record s v)
  · rw [h]; exact .error .badAccess (.inr rfl) (sameSpecState_record _ v)

theorem accessEffect_hostWrite (off : BitVec 4) (n : Nat) (v : Word) : AccessEffect s (hostWrite off n v s) := by
  obtain h | h | ⟨he, hp, h⟩ | ⟨code, hc, h⟩ := hostWrite_cases s off n v
  · exact .unchanged (sameSpecState_of_eq h)
  · exact .argWritten v (sameSpecState_of_eq h)
  · exact .issued v he hp (sameSpecState_of_eq h)
  · exact .error code hc (sameSpecState_of_eq h)

theorem sameSpecState_hostPoll (s : State) : SameSpecState (hostPoll s) s := by
  cases hp : s.pend with
  | none => rw [hostPoll_idle s hp]; exact sameSpecState_record s _
  | some p => rw [hostPoll_busy s hp]; exact ⟨rfl, rfl, rfl, rfl, rfl, rfl⟩

/-- A host address in the window is a read at its offset (00_scope.md R10). -/
theorem hostPerform_memRead_inside {a : Nat} {off : BitVec 4} (n : Nat) (h : windowOffset a = some off) :
    hostPerform (.memRead a n) s = hostPerform (.read off n) s := by
  simp [hostPerform, memRead, h]

theorem hostPerform_memRead_outside {a : Nat} (n : Nat) (h : windowOffset a = none) :
    hostPerform (.memRead a n) s = s := by
  simp [hostPerform, memRead, h]

/-- A host address in the window is a write at its offset (00_scope.md R10). -/
theorem hostPerform_memWrite_inside {a : Nat} {off : BitVec 4} (n : Nat) (v : Word) (h : windowOffset a = some off) :
    hostPerform (.memWrite a n v) s = hostPerform (.write off n v) s := by
  simp [hostPerform, memWrite, h]

theorem hostPerform_memWrite_outside {a : Nat} (n : Nat) (v : Word) (h : windowOffset a = none) :
    hostPerform (.memWrite a n v) s = s := by
  simp [hostPerform, memWrite, h]

theorem accessEffect_hostPerform {op : HostOp} (h : op ≠ .reset) : AccessEffect s (hostPerform op s) := by
  cases op with
  | read off n => exact accessEffect_record_hostRead off n _
  | write off n v => exact accessEffect_hostWrite off n v
  | poll => exact .unchanged (sameSpecState_hostPoll s)
  | reset => exact absurd rfl h
  | memRead a n =>
    cases hw : windowOffset a with
    | none => exact .unchanged (sameSpecState_of_eq (hostPerform_memRead_outside n hw))
    | some off => rw [hostPerform_memRead_inside n hw]; exact accessEffect_record_hostRead off n _
  | memWrite a n v =>
    cases hw : windowOffset a with
    | none => exact .unchanged (sameSpecState_of_eq (hostPerform_memWrite_outside n v hw))
    | some off => rw [hostPerform_memWrite_inside n v hw]; exact accessEffect_hostWrite off n v

theorem accessEffect_hostStep {op : HostOp} (rest : List HostOp) (h : op ≠ .reset) :
    AccessEffect s (hostStep op rest s) := by
  obtain hs | ⟨v, hs⟩ | ⟨c, he, hp, hs⟩ | ⟨code, hc, hs⟩ := accessEffect_hostPerform (s := s.takeOp rest) h
  · exact .unchanged hs
  · exact .argWritten v hs
  · exact .issued c he hp hs
  · rw [raiseError_takeOp] at hs
    exact .error code hc hs

/-! ## What a step can do -/

/-- What one step can do: hold the state, complete a decoded command (20_memory.md R42) or an illegal word
(60_exceptions.md R91), reset the engine (70_reset_and_hazards.md R109), or perform a host access. -/
inductive StepEffect (s t : State) : Prop where
  | held (same : t = s)
  | completed (i : Instr) (u : State) (running : s.err = false) (run : exec i s = .next u) (retired : t = u.retire)
  | illegal (running : s.err = false) (raised : t = s.raiseError .illegalCmd)
  | reset (rest : List HostOp) (next : s.program = .reset :: rest) (same : SameSpecState t State.reset)
  | access (effect : AccessEffect s t)

theorem step_effect (h : step s = .next t) : StepEffect s t := by
  obtain ⟨-, -, h⟩ | ⟨op, rest, -, hp, rfl⟩ | ⟨-, -, -, h⟩ := step_cases s h
  · obtain h | ⟨he, p, -, ⟨i, u, -, hu, ht⟩ | ⟨-, ht⟩⟩ := engineStep_cases s h
    · exact .held h
    · exact .completed i u he hu ht
    · exact .illegal he ht
  · by_cases hop : op = .reset
    · subst hop
      exact .reset rest hp ⟨rfl, rfl, rfl, rfl, rfl, rfl⟩
    · exact .access (accessEffect_hostStep rest hop)
  · exact .held h

/-! ## The errors have codes other than NONE (60_exceptions.md R90) -/

theorem hostError_ne_none {code : ErrorCode} (h : code = .busyViolation ∨ code = .badAccess) : code ≠ .none := by
  rintro rfl
  simp at h

theorem commandError_ne_none {code : ErrorCode} (h : code = .illegalCmd ∨ code = .zeroSeed ∨ code = .notReady) :
    code ≠ .none := by
  rintro rfl
  simp at h

/-! ## The invariant -/

/-- The invariant speaks of the spec state only. -/
theorem consistent_of_sameSpecState (h : SameSpecState t s) (hs : Consistent s) : Consistent t := by
  obtain ⟨htable, -, -, herr, hecode, hpend⟩ := h
  simpa only [Consistent, htable, herr, hecode, hpend] using hs

theorem consistent_raiseError (hs : Consistent s) {code : ErrorCode} (hc : code ≠ .none) :
    Consistent (s.raiseError code) := by
  obtain ⟨hsize, hcode, -⟩ := hs
  cases he : s.err with
  | false => simp [Consistent, State.raiseError_ecode, he, hsize, hc]
  | true => simpa [Consistent, State.raiseError_ecode, he, hsize] using hcode

theorem consistent_setTable (hs : Consistent s) {T : List Word} (hT : T.length ≤ 31) : Consistent (s.setTable T) :=
  ⟨hT, hs.2⟩

theorem consistent_issue (hs : Consistent s) (he : s.err = false) (c : Word) : Consistent (s.issue c) := by
  obtain ⟨hsize, hcode, -⟩ := hs
  exact ⟨hsize, hcode, by simp [he]⟩

theorem consistent_retire (hs : Consistent s) : Consistent s.retire := by
  obtain ⟨hsize, hcode, -⟩ := hs
  exact ⟨hsize, hcode, fun _ => rfl⟩

theorem exec_keeps_consistent {i : Instr} (hs : Consistent s) (h : exec i s = .next t) : Consistent t := by
  obtain rfl | ⟨w, -, rfl⟩ | ⟨n, -, hl, -, rfl⟩ | ⟨a, -, -, -, rfl⟩ | ⟨a, -, -, rfl⟩ | ⟨code, hc, rfl⟩ :=
    exec_cases s h
  · exact hs
  · exact hs
  · exact consistent_setTable hs (push_length_le hl.le n)
  · exact consistent_setTable hs (seedTable_length a).le
  · exact consistent_setTable hs (push_length_le hs.1 a)
  · exact consistent_raiseError hs (commandError_ne_none hc)

theorem access_keeps_consistent (hs : Consistent s) (h : AccessEffect s t) : Consistent t := by
  cases h with
  | unchanged same => exact consistent_of_sameSpecState same hs
  | argWritten v same => exact consistent_of_sameSpecState same hs
  | issued c he _ same => exact consistent_of_sameSpecState same (consistent_issue hs he c)
  | error code hc same =>
    exact consistent_of_sameSpecState same (consistent_raiseError hs (hostError_ne_none hc))

theorem step_keeps_consistent (hs : Consistent s) (h : step s = .next t) : Consistent t := by
  cases step_effect h with
  | held same => exact same ▸ hs
  | completed i u _ run retired => exact retired ▸ consistent_retire (exec_keeps_consistent hs run)
  | illegal _ raised => exact raised ▸ consistent_raiseError hs (by decide)
  | reset rest _ same => exact consistent_of_sameSpecState same (by decide)
  | access effect => exact access_keeps_consistent hs effect

/-! ## ERR is sticky -/

/-- A command leaves ERR, ECODE and PEND alone, or it raises one of the three errors of a completion step. -/
theorem exec_error_cases {i : Instr} (h : exec i s = .next t) :
    (t.err = s.err ∧ t.ecode = s.ecode ∧ t.pend = s.pend)
    ∨ ∃ code, (code = .illegalCmd ∨ code = .zeroSeed ∨ code = .notReady) ∧ t = s.raiseError code := by
  obtain rfl | ⟨w, -, rfl⟩ | ⟨n, -, -, -, rfl⟩ | ⟨a, -, -, -, rfl⟩ | ⟨a, -, -, rfl⟩ | herror := exec_cases s h
  iterate 5 exact .inl ⟨rfl, rfl, rfl⟩
  exact .inr herror

/-- ERR and ECODE are as before, or an error with one of the codes of 60_exceptions.md R90 came, which a halted engine
does not record (R94). -/
def ErrKeptOrRaised (s t : State) : Prop :=
  (t.err = s.err ∧ t.ecode = s.ecode)
  ∨ ∃ code, code ≠ .none ∧ t.err = true ∧ t.ecode = if s.err then s.ecode else code

theorem errKeptOrRaised_raiseError {code : ErrorCode} (hc : code ≠ .none) : ErrKeptOrRaised s (s.raiseError code) :=
  .inr ⟨code, hc, s.raiseError_err code, s.raiseError_ecode code⟩

theorem errKeptOrRaised_of_sameSpecState {u : State} (h : SameSpecState t u) (hu : ErrKeptOrRaised s u) :
    ErrKeptOrRaised s t := by
  obtain ⟨-, -, -, herr, hecode, -⟩ := h
  simpa only [ErrKeptOrRaised, herr, hecode] using hu

theorem access_errKeptOrRaised (h : AccessEffect s t) : ErrKeptOrRaised s t := by
  cases h with
  | unchanged same => exact errKeptOrRaised_of_sameSpecState same (.inl ⟨rfl, rfl⟩)
  | argWritten v same => exact errKeptOrRaised_of_sameSpecState same (.inl ⟨rfl, rfl⟩)
  | issued c _ _ same => exact errKeptOrRaised_of_sameSpecState same (.inl ⟨rfl, rfl⟩)
  | error code hc same =>
    exact errKeptOrRaised_of_sameSpecState same (errKeptOrRaised_raiseError (hostError_ne_none hc))

theorem exec_errKeptOrRaised {i : Instr} (h : exec i s = .next t) : ErrKeptOrRaised s t := by
  obtain ⟨herr, hecode, -⟩ | ⟨code, hc, rfl⟩ := exec_error_cases h
  · exact .inl ⟨herr, hecode⟩
  · exact errKeptOrRaised_raiseError (commandError_ne_none hc)

theorem step_errKeptOrRaised_or_reset (h : step s = .next t) :
    ErrKeptOrRaised s t ∨ (t.err = false ∧ ∃ rest, s.program = .reset :: rest) := by
  cases step_effect h with
  | held same => exact .inl (.inl (same ▸ ⟨rfl, rfl⟩))
  | completed i u _ run retired =>
    have hu : ErrKeptOrRaised s u := exec_errKeptOrRaised run
    subst retired
    exact .inl hu
  | illegal _ raised => exact .inl (raised ▸ errKeptOrRaised_raiseError (by decide))
  | reset rest next same =>
    obtain ⟨-, -, -, herr, -, -⟩ := same
    exact .inr ⟨herr, rest, next⟩
  | access effect => exact .inl (access_errKeptOrRaised effect)

/-! ## SIZE -/

/-- No command lowers SIZE, or takes it beyond 31 (10_state.md R16). -/
theorem exec_size {i : Instr} (hs : s.size ≤ 31) (h : exec i s = .next t) : s.size ≤ t.size ∧ t.size ≤ 31 := by
  unfold State.size at *
  obtain rfl | ⟨w, -, rfl⟩ | ⟨n, -, hl, -, rfl⟩ | ⟨a, -, -, -, rfl⟩ | ⟨a, -, -, rfl⟩ | ⟨code, -, rfl⟩ :=
    exec_cases s h
  · exact ⟨le_rfl, hs⟩
  · exact ⟨le_rfl, hs⟩
  · simp [push_length_full hl, hl]
  · simpa using hs
  · have := push_length hs a
    simp
    omega
  · simpa using hs

theorem access_table (h : AccessEffect s t) : t.table = s.table := by
  cases h with
  | unchanged same => exact same.1
  | argWritten v same => exact same.1
  | issued c _ _ same => exact same.1
  | error code _ same => exact same.1.trans (s.raiseError_table code)

theorem step_size (hs : s.size ≤ 31) (h : step s = .next t) :
    t.size ≤ 31 ∧ (s.size ≤ t.size ∨ ∃ rest, s.program = .reset :: rest) := by
  have keeps : t.table = s.table → t.size ≤ 31 ∧ (s.size ≤ t.size ∨ ∃ rest, s.program = .reset :: rest) := by
    intro htable
    simpa [State.size, htable] using hs
  cases step_effect h with
  | held same => exact keeps (by rw [same])
  | completed i u _ run retired =>
    obtain ⟨hle, hmax⟩ := exec_size hs run
    exact retired ▸ ⟨hmax, .inl hle⟩
  | illegal _ raised => exact keeps (by simp [raised])
  | reset rest next same => exact ⟨by simp [State.size, same.1, State.reset], .inr ⟨rest, next⟩⟩
  | access effect => exact keeps (access_table effect)

/-! ## The frame of a command -/

/-- A command never writes ARG, nor anything of the host's side (41_advance_peek.md R82, 10_state.md R19). -/
theorem exec_arg_hostSide {i : Instr} (h : exec i s = .next t) : t.arg = s.arg ∧ SameHostSide t s := by
  obtain rfl | ⟨w, -, rfl⟩ | ⟨n, -, -, -, rfl⟩ | ⟨a, -, -, -, rfl⟩ | ⟨a, -, -, rfl⟩ | ⟨code, -, rfl⟩ :=
    exec_cases s h
  iterate 5 exact ⟨rfl, rfl, rfl, rfl, rfl, rfl⟩
  simp [SameHostSide]

/-- The commands that write T (10_state.md R29). -/
theorem exec_table {i : Instr} (h : exec i s = .next t) :
    t.table = s.table ∨ i = .seed ∨ i = .loadpush ∨ i = .advance := by
  obtain rfl | ⟨w, -, rfl⟩ | ⟨n, hi, -⟩ | ⟨a, hi, -⟩ | ⟨a, hi, -⟩ | ⟨code, -, rfl⟩ := exec_cases s h
  · exact .inl rfl
  · exact .inl rfl
  · exact .inr (.inr (.inr hi))
  · exact .inr (.inl hi)
  · exact .inr (.inr (.inl hi))
  · exact .inl (s.raiseError_table code)

/-- The commands that write RESULT (10_state.md R20). -/
theorem exec_result {i : Instr} (h : exec i s = .next t) :
    t.result = s.result ∨ i = .advance ∨ i = .peeks ∨ i = .peeko ∨ ∃ idx, i = .readt idx := by
  obtain rfl | ⟨w, hi, -⟩ | ⟨n, hi, -⟩ | ⟨a, -, -, -, rfl⟩ | ⟨a, -, -, rfl⟩ | ⟨code, -, rfl⟩ := exec_cases s h
  · exact .inl rfl
  · exact .inr (.inr hi)
  · exact .inr (.inl hi)
  · exact .inl rfl
  · exact .inl rfl
  · exact .inl (s.raiseError_result code)

/-! ## The fields of STATUS (10_state.md R21) -/

theorem statusWord_bit_one (s : State) : s.statusWord.getLsbD 1 = s.err := by
  simp [State.statusWord]

theorem statusWord_bits_3_2 (s : State) : s.statusWord.extractLsb' 2 2 = 0 := by
  ext k hk
  simp [State.statusWord, (by omega : 2 + k < 8), (by omega : 2 + k < 4)]

theorem statusWord_ecode (s : State) : s.statusWord.extractLsb' 4 4 = s.ecode.code := by
  ext k hk
  simp [State.statusWord, (by omega : 4 + k < 8), (by omega : 4 + k < 32), hk]

theorem statusWord_size (s : State) : s.statusWord.extractLsb' 8 5 = BitVec.ofNat 5 s.size := by
  ext k hk
  simp [State.statusWord, (by omega : 8 + k < 32), hk,
    BitVec.getLsbD_of_ge s.ecode.code (8 + k - 4) (by omega)]

theorem statusWord_bits_31_13 (s : State) : s.statusWord.extractLsb' 13 19 = 0 := by
  ext k hk
  simp [State.statusWord, BitVec.getLsbD_of_ge s.ecode.code (13 + k - 4) (by omega),
    BitVec.getLsbD_of_ge (BitVec.ofNat 5 s.size) (13 + k - 8) (by omega)]

end Sys2Proof.Machine

namespace Sys2Proof

open Sys2Proof.Machine

/-- Settles O49: each effect of `step_effect` keeps the invariant. -/
theorem stepKeepsConsistent : Obligations.StepKeepsConsistent :=
  fun _ _ hs h => step_keeps_consistent hs h

/-- Settles O8, field by field of the status word. -/
theorem statusLayout : Obligations.StatusLayout := by
  refine ⟨fun s hsize => ⟨s.statusWord, rfl, statusWord_bit_zero s, statusWord_bit_one s, statusWord_bits_3_2 s,
    statusWord_ecode s, ?_, statusWord_bits_31_13 s⟩, by decide, fun _ _ => rfl⟩
  rw [statusWord_size, BitVec.toNat_ofNat]
  exact Nat.mod_eq_of_lt (Nat.lt_succ_of_le hsize)

/-- Settles O18: apart from a RESET, a step keeps ERR and ECODE or raises an error with a code other than NONE. -/
theorem onlyResetClearsErr : Obligations.OnlyResetClearsErr := by
  intro s t h
  obtain (⟨herr, -⟩ | ⟨code, hc, herr, hecode⟩) | ⟨herr, hreset⟩ := step_errKeptOrRaised_or_reset h
  · exact ⟨fun he hf => by simp [herr, he] at hf, fun he hf => by simp [herr, he] at hf⟩
  · exact ⟨fun _ hf => by simp [herr] at hf, fun he _ => by simpa [hecode, he] using hc⟩
  · exact ⟨fun _ _ => hreset, fun _ hf => by simp [herr] at hf⟩

/-- Settles O19: no command lowers SIZE and no host access writes T. -/
theorem sizeNeverLowered : Obligations.SizeNeverLowered :=
  fun _ _ hs h => step_size hs h

/-- Settles O42, register by register from `exec_cases`. -/
theorem commandFrame : Obligations.CommandFrame := by
  intro i s t h
  obtain ⟨harg, hhost⟩ := exec_arg_hostSide h
  refine ⟨harg, hhost, harg, exec_table h, exec_result h, ?_⟩
  obtain hsame | ⟨code, -, rfl⟩ := exec_error_cases h
  · exact .inl hsame
  · exact .inr ⟨⟨code, rfl⟩, s.raiseError_table code, s.raiseError_result code⟩

end Sys2Proof

/-! SUPPORT. The register window of 20_memory.md: the offset of a host address, the cases of a CMD write, and a step
whose completion is due. -/

namespace Sys2Proof.Machine

variable {s : State}

/-- BASE is 16-byte aligned (20_memory.md R32). -/
theorem base_mod_window : Config.base % 16 = 0 := Nat.mul_mod_right 16 Config.baseUnits

/-- The offset of a host address in the window is its distance from BASE (20_memory.md R32). -/
theorem windowOffset_eq_some_iff {a : Nat} {off : BitVec 4} :
    windowOffset a = some off ↔ Config.base ≤ a ∧ a < Config.base + 16 ∧ a = Config.base + off.toNat := by
  unfold windowOffset
  split
  case isTrue hin =>
    obtain ⟨hlow, hhigh⟩ : Config.base ≤ a ∧ a < Config.base + 16 := hin
    have hdist : (BitVec.ofNat 4 (a - Config.base)).toNat = a - Config.base :=
      Nat.mod_eq_of_lt (by omega)
    rw [Option.some_inj, ← BitVec.toNat_inj, hdist]
    omega
  case isFalse hout => exact iff_of_false (by simp) fun ⟨hlow, hhigh, _⟩ => hout ⟨hlow, hhigh⟩

theorem windowOffset_outside {a : Nat} (h : ¬ (Config.base ≤ a ∧ a < Config.base + 16)) : windowOffset a = none :=
  if_neg h

theorem memRead_outside {a : Nat} (n : Nat) (h : windowOffset a = none) : memRead a n s = none := by
  simp [memRead, h]

theorem memWrite_outside {a : Nat} (n : Nat) (v : Word) (h : windowOffset a = none) : memWrite a n v s = none := by
  simp [memWrite, h]

/-- `MemRead` in the window is `HostRead` at the offset (00_scope.md R10). -/
theorem memRead_inside {a : Nat} {off : BitVec 4} (n : Nat) (h : windowOffset a = some off) :
    memRead a n s = some (hostRead off n s) := by
  simp [memRead, h]

/-- `MemWrite` in the window is `HostWrite` at the offset (00_scope.md R10). -/
theorem memWrite_inside {a : Nat} {off : BitVec 4} (n : Nat) (v : Word) (h : windowOffset a = some off) :
    memWrite a n v s = some (hostWrite off n v s) := by
  simp [memWrite, h]

/-- A bad access reaches no register (20_memory.md R35). -/
theorem windowReg_of_badAccess {off : BitVec 4} {n : Nat} (h : BadAccess off n) : windowReg off n = none :=
  windowReg_eq_none_iff.mpr h

/-- An access that is not bad is 4 bytes wide (20_memory.md R35). -/
theorem width_of_not_badAccess {off : BitVec 4} {n : Nat} (h : ¬ BadAccess off n) : n = 4 := by
  by_contra hn
  exact h (.inl hn)

/-- A halted engine ignores a CMD write (60_exceptions.md R94). -/
theorem writeCmd_halted (v : Word) (he : s.err = true) : s.writeCmd v = s := by
  simp [State.writeCmd, he]

/-- A CMD write while a command is pending raises BUSY_VIOLATION (60_exceptions.md R96). -/
theorem writeCmd_busy (v : Word) (he : s.err = false) (hp : s.pend ≠ none) :
    s.writeCmd v = s.raiseError .busyViolation := by
  simp [State.writeCmd, State.busy, he, Option.isSome_iff_ne_none, hp]

/-- Any other CMD write issues the command (20_memory.md R37). -/
theorem writeCmd_idle (v : Word) (he : s.err = false) (hp : s.pend = none) : s.writeCmd v = s.issue v := by
  simp [State.writeCmd, State.busy, he, hp]

/-- A due completion of a legal command is one run of it, and its retirement (20_memory.md R42). -/
theorem step_due {p : Pending} {i : Instr} {t : State} (he : s.err = false) (hp : s.pend = some p)
    (hdue : s.program = [] ∨ s.wait = 0) (hi : decode p.word = .ok i) (ht : exec i s = .next t) :
    step s = .next t.retire := by
  rw [step_engine s (mover_engine s he hp hdue), engineStep_enabled s he hp, execute_legal s hi, ht]
  rfl

end Sys2Proof.Machine

namespace Sys2Proof

open Sys2Proof.Machine

/-- Settles O14: an address in the window is an access at its distance from BASE, any other reaches nothing. -/
theorem windowAddressing : Obligations.WindowAddressing := by
  refine ⟨base_mod_window, fun a n v s => ⟨fun off => windowOffset_eq_some_iff, ?_, ?_⟩⟩
  · intro hout
    have hnone : windowOffset a = none := windowOffset_outside hout
    exact ⟨memRead_outside n hnone, memWrite_outside n v hnone⟩
  · intro off hoff
    exact ⟨memRead_inside n hoff, memWrite_inside n v hoff⟩

/-- Settles O9, register by register. -/
theorem hostReadRule : Obligations.HostReadRule := by
  intro s off n
  refine ⟨fun hbad => hostRead_bad s (windowReg_of_badAccess hbad), fun hok => ?_⟩
  obtain rfl := width_of_not_badAccess hok
  refine ⟨?_, ?_, ?_, ?_⟩ <;> rintro rfl
  · exact hostRead_reg s windowReg_cmd
  · exact hostRead_reg s windowReg_arg
  · exact hostRead_reg s windowReg_result
  · exact hostRead_reg s windowReg_status

/-- Settles O10, register by register; a CMD write in the order of checks of 60_exceptions.md R98. -/
theorem hostWriteRule : Obligations.HostWriteRule := by
  intro s off n v
  refine ⟨fun hbad => hostWrite_bad s v (windowReg_of_badAccess hbad), fun hok => ?_⟩
  obtain rfl := width_of_not_badAccess hok
  refine ⟨?_, ?_, ?_, ?_⟩ <;> rintro rfl
  · have hcmd : hostWrite 0x0#4 4 v s = s.writeCmd v := hostWrite_reg s v windowReg_cmd
    rw [hcmd]
    refine ⟨writeCmd_halted v, fun he hp => ?_, fun he hp => ?_⟩
    · rw [writeCmd_busy v he hp, s.raiseError_first .busyViolation he]
    · rw [writeCmd_idle v he hp]
      exact ⟨rfl, rfl, rfl, rfl, rfl, rfl⟩
  · exact hostWrite_reg s v windowReg_arg
  · exact hostWrite_reg s v windowReg_result
  · exact hostWrite_reg s v windowReg_status

/-- Settles O45: with a command pending every meaning answers a next state, which the due step retires. -/
theorem stepRunsDecodedCommand : Obligations.StepRunsDecodedCommand := by
  intro s p i he hp hdue hi
  obtain ⟨t, ht⟩ := exec_next_of_pending s i hp
  exact ⟨t, ht, step_due he hp hdue hi ht⟩

end Sys2Proof

/-! SUPPORT. The command word of 30_encoding.md as a number: which words decode, and to what. -/

namespace Sys2Proof

open Sys2Proof.Machine

/-- The OP field as `c mod 16` (30_encoding.md R47). -/
theorem opField_toNat (c : Word) : (opField c).toNat = c.toNat % 16 := by
  simp [opField, BitVec.extractLsb'_toNat]

/-- The IDX field as `c / 16 mod 32` (R48). -/
theorem idxField_toNat (c : Word) : (idxField c).toNat = c.toNat / 16 % 32 := by
  simp [idxField, BitVec.extractLsb'_toNat, Nat.shiftRight_eq_div_pow]

/-- The RSV field is 0 iff the word is below 512 (R49). -/
theorem rsvField_eq_zero_iff (c : Word) : rsvField c = 0 ↔ c.toNat / 512 = 0 := by
  have hlt : c.toNat < 4294967296 := c.isLt
  rw [← BitVec.toNat_inj, rsvField, BitVec.extractLsb'_toNat, Nat.shiftRight_eq_div_pow]
  simp
  omega

/-- The word whose three fields are those of a command is the encoding of the command (R46). -/
theorem encode_eq_of_fields {c : Word} {i : Instr} (hrsv : c.toNat / 512 = 0) (hop : c.toNat % 16 = i.opcode.toNat)
    (hidx : c.toNat / 16 % 32 = i.index.toNat) : encode i = c := by
  apply BitVec.eq_of_toNat_eq
  rw [Laws.EncodedFields.toNat_encode]
  omega

theorem decodePlain_ok {i j : Instr} {c : Word} (h : decodePlain i c = .ok j) : j = i ∧ idxField c = 0 := by
  unfold decodePlain at h
  split at h
  case isTrue hidx => exact ⟨(Except.ok.inj h).symm, hidx⟩
  case isFalse => cases h

theorem decodeReadt_ok {j : Instr} {c : Word} (h : decodeReadt c = .ok j) :
    j = .readt (idxField c) ∧ (idxField c).toNat ≤ 30 := by
  unfold decodeReadt at h
  split at h
  case isTrue hidx => exact ⟨(Except.ok.inj h).symm, hidx⟩
  case isFalse => cases h

/-- What a word decodes to has the word's operation code and index, and is well-formed (R51, R52). -/
theorem decode_ok_fields {c : Word} {i : Instr} (h : decode c = .ok i) :
    i.wellFormed = true ∧ rsvField c = 0 ∧ (opField c).toNat = i.opcode.toNat ∧ idxField c = i.index := by
  unfold decode at h
  split at h
  case isTrue => cases h
  case isFalse hrsv =>
    have hrsv : rsvField c = 0 := by simpa using hrsv
    split at h
    case h_7 hop =>
      obtain ⟨rfl, hidx⟩ := decodeReadt_ok h
      exact ⟨by simpa [Instr.wellFormed] using hidx, hrsv, hop, rfl⟩
    case h_8 => cases h
    all_goals
      obtain ⟨rfl, hidx⟩ := decodePlain_ok h
      exact ⟨rfl, hrsv, ‹_›, hidx⟩

/-- Decoding undoes the encoding of a well-formed command (R46 to R51). -/
theorem decode_encode {i : Instr} (h : i.wellFormed = true) : decode (encode i) = .ok i := by
  cases i with
  | readt idx =>
    have hidx : idx.toNat ≤ 30 := by simpa [Instr.wellFormed] using h
    simp [decode, decodeReadt, Instr.opcode, Instr.index, hidx]
  | _ => simp [decode, decodePlain, Instr.opcode, Instr.index]

/-- A word decodes to a command iff the command is well-formed and the word is its encoding (R52). -/
theorem decode_eq_ok_iff {c : Word} {i : Instr} : decode c = .ok i ↔ i.wellFormed = true ∧ encode i = c := by
  constructor
  · intro h
    obtain ⟨hwf, hrsv, hop, hidx⟩ := decode_ok_fields h
    exact ⟨hwf, encode_eq_of_fields ((rsvField_eq_zero_iff c).mp hrsv) (opField_toNat c ▸ hop)
      (by rw [← idxField_toNat, hidx])⟩
  · rintro ⟨hwf, rfl⟩
    exact decode_encode hwf

/-- The encoding of a well-formed command is legal (R52). -/
theorem legalWord_encode {i : Instr} (h : i.wellFormed = true) : LegalWord (encode i) := by
  unfold LegalWord
  rw [Laws.EncodedFields.toNat_encode]
  cases i with
  | readt idx =>
    have hidx : idx.toNat ≤ 30 := by simpa [Instr.wellFormed] using h
    have hop : (Instr.readt idx).opcode.toNat = 6 := rfl
    have hindex : (Instr.readt idx).index = idx := rfl
    rw [hop, hindex]
    omega
  | _ => decide

/-- A legal word decodes to the well-formed command of its operation code and index (R51, R52). -/
theorem decode_legal {c : Word} {i : Instr} (h : LegalWord c) (hwf : i.wellFormed = true)
    (hop : c.toNat % 16 = i.opcode.toNat) (hidx : c.toNat / 16 % 32 = i.index.toNat) : decode c = .ok i :=
  decode_eq_ok_iff.mpr ⟨hwf, encode_eq_of_fields h.1 hop hidx⟩

/-- READT is the one command with an operation code above 5, and the one with an index (R51, R52). -/
theorem plain_of_opcode_le {i : Instr} (h : i.opcode.toNat ≤ 5) : i.wellFormed = true ∧ i.index = 0 := by
  cases i with
  | readt idx => exact absurd h (by simp [Instr.opcode])
  | _ => exact ⟨rfl, rfl⟩

/-- A legal word with an operation code of at most 5 decodes to the command of that code (R51). -/
theorem decode_legal_plain {c : Word} {i : Instr} (h : LegalWord c) (hle : i.opcode.toNat ≤ 5)
    (hop : c.toNat % 16 = i.opcode.toNat) : decode c = .ok i := by
  obtain ⟨hwf, hindex⟩ := plain_of_opcode_le hle
  refine decode_legal h hwf hop ?_
  obtain ⟨-, ⟨-, hidx⟩ | ⟨hsix, -⟩⟩ := h
  · simpa [hindex] using hidx
  · omega

/-- A legal word with the operation code 6 decodes to READT of its index (R51). -/
theorem decode_legal_readt {c : Word} (h : LegalWord c) (hop : c.toNat % 16 = 6) :
    decode c = .ok (.readt (BitVec.ofNat 5 (c.toNat / 16 % 32))) := by
  have hindex : (BitVec.ofNat 5 (c.toNat / 16 % 32)).toNat = c.toNat / 16 % 32 := by simp
  refine decode_legal h ?_ hop hindex.symm
  obtain ⟨-, ⟨hle, -⟩ | ⟨-, hidx⟩⟩ := h
  · omega
  · simpa [Instr.wellFormed] using hidx

/-- The words that decode are the legal ones (R52). -/
theorem exists_decode_iff_legalWord (c : Word) : (∃ i, decode c = .ok i) ↔ LegalWord c := by
  constructor
  · rintro ⟨i, hi⟩
    obtain ⟨hwf, rfl⟩ := decode_eq_ok_iff.mp hi
    exact legalWord_encode hwf
  · intro h
    have hop : c.toNat % 16 = 0 ∨ c.toNat % 16 = 1 ∨ c.toNat % 16 = 2 ∨ c.toNat % 16 = 3 ∨ c.toNat % 16 = 4
        ∨ c.toNat % 16 = 5 ∨ c.toNat % 16 = 6 := by omega
    obtain hop | hop | hop | hop | hop | hop | hop := hop
    · exact ⟨.nop, decode_legal_plain h (by decide) hop⟩
    · exact ⟨.advance, decode_legal_plain h (by decide) hop⟩
    · exact ⟨.peeks, decode_legal_plain h (by decide) hop⟩
    · exact ⟨.peeko, decode_legal_plain h (by decide) hop⟩
    · exact ⟨.seed, decode_legal_plain h (by decide) hop⟩
    · exact ⟨.loadpush, decode_legal_plain h (by decide) hop⟩
    · exact ⟨_, decode_legal_readt h hop⟩

/-- A word that is not legal is refused (R53). -/
theorem decode_illegal {c : Word} (h : ¬ LegalWord c) : ∃ e, decode c = .error e := by
  cases hd : decode c with
  | ok i => exact absurd ((exists_decode_iff_legalWord c).mp ⟨i, hd⟩) h
  | error e => exact ⟨e, rfl⟩

/-- The legal words as R52 lists them: 0 to 5, and READT 0 to READT 30. -/
def legalWords : List Word :=
  [0x0, 0x1, 0x2, 0x3, 0x4, 0x5] ++ (List.range 31).map (fun j => BitVec.ofNat 32 (0x6 + 16 * j))

theorem nodup_legalWords : legalWords.Nodup := by decide

theorem mem_readtWords_iff (c : Word) :
    c ∈ (List.range 31).map (fun j => BitVec.ofNat 32 (0x6 + 16 * j)) ↔ ∃ j, j < 31 ∧ c.toNat = 6 + 16 * j := by
  have hword (j : Nat) (hj : j < 31) : BitVec.ofNat 32 (0x6 + 16 * j) = c ↔ c.toNat = 6 + 16 * j := by
    rw [← BitVec.toNat_inj, BitVec.toNat_ofNat]
    omega
  simp only [List.mem_map, List.mem_range]
  exact exists_congr fun j => and_congr_right fun hj => hword j hj

theorem mem_plainWords_iff (c : Word) : c ∈ ([0x0, 0x1, 0x2, 0x3, 0x4, 0x5] : List Word) ↔ c.toNat ≤ 5 := by
  simp [← BitVec.toNat_inj]
  omega

theorem legalWord_iff_mem (c : Word) : LegalWord c ↔ c ∈ legalWords := by
  unfold legalWords LegalWord
  rw [List.mem_append, mem_plainWords_iff, mem_readtWords_iff]
  constructor
  · rintro ⟨hrsv, ⟨hop, hidx⟩ | ⟨hop, hidx⟩⟩
    · left; omega
    · right; exact ⟨c.toNat / 16, by omega, by omega⟩
  · rintro (hle | ⟨j, hj, hc⟩) <;> omega

/-- Execute runs the command of an operation code of at most 5 (R52). -/
theorem execute_legal_plain {c : Word} {i : Instr} (s : State) (h : LegalWord c) (hle : i.opcode.toNat ≤ 5)
    (hop : c.toNat % 16 = i.opcode.toNat) : execute c s = exec i s :=
  execute_legal s (decode_legal_plain h hle hop)

/-- Settles O4: decoding in terms of the number the word is, and the list of R52. -/
theorem legalWordsAndExecute : Obligations.LegalWordsAndExecute := by
  refine ⟨exists_decode_iff_legalWord, fun c s h => ?_, fun c s h => ?_,
    legalWords, rfl, rfl, nodup_legalWords, legalWord_iff_mem⟩
  · obtain ⟨e, he⟩ := decode_illegal h
    exact execute_illegal s he
  · exact ⟨execute_legal_plain (i := .nop) s h (by decide), execute_legal_plain (i := .advance) s h (by decide),
      execute_legal_plain (i := .peeks) s h (by decide), execute_legal_plain (i := .peeko) s h (by decide),
      execute_legal_plain (i := .seed) s h (by decide), execute_legal_plain (i := .loadpush) s h (by decide),
      fun hop => execute_legal s (decode_legal_readt h hop)⟩

end Sys2Proof

/-! SUPPORT. Programs of pseudo-instructions (30_encoding.md R57): their operations, command by command; the polling
discipline; and their one outcome under every interleaving. Last, SEED and LOADPUSH with no command pending. -/

namespace Sys2Proof.Machine

variable {s t u : State} {op : HostOp} {rest : List HostOp}

/-! ## A program of pseudo-instructions, command by command -/

/-- The read of RESULT that ends the expansion of a command that writes it (R57). -/
def resultRead : Instr → List HostOp
  | .nop | .seed | .loadpush => []
  | .advance | .peeks | .peeko | .readt _ => [rdResult]

/-- The host operations of one command: its ARG write, if any, the CMD write with its POLL, and the read of RESULT. -/
def expandCommand (c : Option Word × Instr) : List HostOp :=
  (c.1.map wrArg).toList ++ (wrCmd (encode c.2) :: .poll :: resultRead c.2)

theorem expand_eq_commands (p : Pseudo) : p.expand = p.commands.flatMap expandCommand := by
  cases p with
  | loadtable words => exact (List.flatMap_map (fun w => (some w, Instr.loadpush)) expandCommand words).symm
  | table => rfl
  | _ => rfl

theorem expandAll_eq_commands (ps : List Pseudo) :
    expandAll ps = (ps.flatMap Pseudo.commands).flatMap expandCommand := by
  rw [List.flatMap_assoc]
  exact congrArg ps.flatMap (funext expand_eq_commands)

/-! ## The operations of an expansion -/

/-- The operations of an expansion, each with what follows it: POLL comes right after a CMD write (R57, R115). -/
inductive PolledOp : HostOp → List HostOp → Prop
  | wrArg (v : Word) (rest : List HostOp) : PolledOp (wrArg v) rest
  | wrCmd (c : Word) (rest : List HostOp) : PolledOp (wrCmd c) (.poll :: rest)
  | poll (rest : List HostOp) : PolledOp .poll rest
  | rdResult (rest : List HostOp) : PolledOp rdResult rest

/-- Every operation of the program is one of those. -/
def Polled (program : List HostOp) : Prop := ∀ op rest, op :: rest <:+ program → PolledOp op rest

theorem polled_nil : Polled [] := fun _ _ h => absurd (List.suffix_nil.mp h) (List.cons_ne_nil _ _)

theorem polled_cons (hop : PolledOp op rest) (hrest : Polled rest) : Polled (op :: rest) := by
  intro op' rest' h
  obtain heq | hsuffix := List.suffix_cons_iff.mp h
  · cases heq
    exact hop
  · exact hrest op' rest' hsuffix

theorem polled_resultRead_append (i : Instr) (hrest : Polled rest) : Polled (resultRead i ++ rest) := by
  cases i with
  | nop | seed | loadpush => exact hrest
  | advance | peeks | peeko | readt => exact polled_cons (.rdResult rest) hrest

theorem polled_expandCommand_append (c : Option Word × Instr) (hrest : Polled rest) :
    Polled (expandCommand c ++ rest) := by
  obtain ⟨v, i⟩ := c
  have hissue : Polled (wrCmd (encode i) :: .poll :: (resultRead i ++ rest)) :=
    polled_cons (.wrCmd _ _) (polled_cons (.poll _) (polled_resultRead_append i hrest))
  cases v with
  | none => exact hissue
  | some v => exact polled_cons (.wrArg v _) hissue

theorem polled_flatMap_expandCommand (cs : List (Option Word × Instr)) : Polled (cs.flatMap expandCommand) := by
  induction cs with
  | nil => exact polled_nil
  | cons c cs ih => exact polled_expandCommand_append c ih

theorem polled_expandAll (ps : List Pseudo) : Polled (expandAll ps) :=
  expandAll_eq_commands ps ▸ polled_flatMap_expandCommand _

/-! ## What the host's step is, for each of these operations -/

theorem hostStep_wrArg (v : Word) : hostStep (wrArg v) rest s = { s.takeOp rest with arg := v } := rfl

theorem hostStep_rdResult : hostStep rdResult rest s = (s.takeOp rest).record s.result := rfl

theorem hostStep_wrCmd_halted (c : Word) (he : s.err = true) : hostStep (wrCmd c) rest s = s.takeOp rest :=
  writeCmd_halted (s := s.takeOp rest) c he

theorem hostStep_wrCmd_idle (c : Word) (he : s.err = false) (hp : s.pend = none) :
    hostStep (wrCmd c) rest s = (s.takeOp rest).issue c :=
  writeCmd_idle (s := s.takeOp rest) c he hp

theorem hostStep_poll_idle (hp : s.pend = none) : hostStep .poll rest s = (s.takeOp rest).record s.statusWord :=
  hostPoll_idle (s.takeOp rest) hp

theorem hostStep_poll_busy {p : Pending} (hp : s.pend = some p) :
    hostStep .poll rest s = { (s.takeOp rest).record s.statusWord with program := .poll :: rest } :=
  hostPoll_busy (s.takeOp rest) hp

/-! ## The polling discipline -/

/-- No error of the host is recorded (60_exceptions.md R96, R97). -/
abbrev NoHostError (s : State) : Prop := s.ecode ≠ .busyViolation ∧ s.ecode ≠ .badAccess

theorem noHostError_raiseError {code : ErrorCode} (hs : NoHostError s)
    (hc : code = .illegalCmd ∨ code = .zeroSeed ∨ code = .notReady) : NoHostError (s.raiseError code) := by
  unfold NoHostError
  rw [s.raiseError_ecode]
  split
  · exact hs
  · obtain rfl | rfl | rfl := hc <;> decide

theorem exec_keeps_noHostError {i : Instr} (hs : NoHostError s) (h : exec i s = .next t) : NoHostError t := by
  obtain ⟨-, hecode, -⟩ | ⟨code, hc, rfl⟩ := exec_error_cases h
  · simpa only [NoHostError, hecode] using hs
  · exact noHostError_raiseError hs hc

/-- What Execute can do to a word: run a command, or raise ILLEGAL_CMD (30_encoding.md R52). -/
theorem execute_cases {c : Word} (h : execute c s = .next t) :
    (∃ i, exec i s = .next t) ∨ t = s.raiseError .illegalCmd := by
  cases hd : decode c with
  | ok i => exact .inl ⟨i, execute_legal s hd ▸ h⟩
  | error e =>
    rw [execute_illegal s hd] at h
    exact .inr (Host.Outcome.next.inj h).symm

theorem execute_program {c : Word} (h : execute c s = .next t) : t.program = s.program := by
  obtain ⟨i, hi⟩ | rfl := execute_cases h
  · obtain ⟨-, hprogram, -⟩ := exec_arg_hostSide hi
    exact hprogram
  · exact s.raiseError_program _

theorem execute_keeps_noHostError {c : Word} (hs : NoHostError s) (h : execute c s = .next t) : NoHostError t := by
  obtain ⟨i, hi⟩ | rfl := execute_cases h
  · exact exec_keeps_noHostError hs hi
  · exact noHostError_raiseError hs (.inl rfl)

/-- An enabled completion step is Execute, and then the command is retired (20_memory.md R42). -/
theorem engineStep_pending {p : Pending} (he : s.err = false) (hp : s.pend = some p) (h : engineStep s = .next t) :
    ∃ u, execute p.word s = .next u ∧ t = u.retire := by
  obtain ⟨u, hu⟩ := execute_next_of_pending s p.word hp
  rw [engineStep_enabled s he hp, hu] at h
  exact ⟨u, hu, (Host.Outcome.next.inj h).symm⟩

theorem engineStep_keeps_pollDiscipline (hs : PollDiscipline s) (hc : s.completionEnabled = true)
    (h : engineStep s = .next t) : PollDiscipline t := by
  obtain ⟨⟨ps, hsuffix⟩, -, hcode⟩ := hs
  obtain ⟨he, p, hp⟩ := (completionEnabled_iff s).mp hc
  obtain ⟨u, hu, rfl⟩ := engineStep_pending he hp h
  have hprogram : u.program = s.program := execute_program hu
  have hcode' : NoHostError u := execute_keeps_noHostError hcode hu
  exact ⟨⟨ps, hprogram ▸ hsuffix⟩, .inl rfl, hcode'⟩

/-- The host leaves a suffix of its program, and a command pending only where POLL comes next: so does each operation
of an expansion where no command is pending, and so does POLL anywhere. -/
theorem hostStep_polled (hop : PolledOp op rest) (hp : s.pend = none ∨ op = .poll) :
    (hostStep op rest s).program <:+ op :: rest
    ∧ ((hostStep op rest s).pend = none ∨ ∃ rest', (hostStep op rest s).program = .poll :: rest')
    ∧ (hostStep op rest s).ecode = s.ecode := by
  have hrest : rest <:+ op :: rest := List.suffix_cons op rest
  cases hop with
  | wrArg v =>
    have hp : s.pend = none := hp.resolve_right (by simp)
    rw [hostStep_wrArg]
    exact ⟨hrest, .inl hp, rfl⟩
  | wrCmd c rest =>
    have hp : s.pend = none := hp.resolve_right (by simp)
    cases he : s.err with
    | false =>
      rw [hostStep_wrCmd_idle c he hp]
      exact ⟨hrest, .inr ⟨rest, rfl⟩, rfl⟩
    | true =>
      rw [hostStep_wrCmd_halted c he]
      exact ⟨hrest, .inl hp, rfl⟩
  | poll =>
    cases hp : s.pend with
    | none =>
      rw [hostStep_poll_idle hp]
      exact ⟨hrest, .inl hp, rfl⟩
    | some p =>
      rw [hostStep_poll_busy hp]
      exact ⟨List.suffix_rfl, .inr ⟨rest, rfl⟩, rfl⟩
  | rdResult =>
    have hp : s.pend = none := hp.resolve_right (by simp)
    rw [hostStep_rdResult]
    exact ⟨hrest, .inl hp, rfl⟩

theorem hostStep_keeps_pollDiscipline (hs : PollDiscipline s) (hprogram : s.program = op :: rest) :
    PollDiscipline (hostStep op rest s) := by
  obtain ⟨⟨ps, hsuffix⟩, hpend, hcode⟩ := hs
  rw [hprogram] at hsuffix hpend
  have hpend : s.pend = none ∨ op = .poll :=
    hpend.imp_right fun ⟨_, hcons⟩ => (List.cons.inj hcons).1
  obtain ⟨hsuffix', hpend', hecode⟩ := hostStep_polled (polled_expandAll ps op rest hsuffix) hpend
  exact ⟨⟨ps, hsuffix'.trans hsuffix⟩, hpend', by simpa only [hecode] using hcode⟩

theorem step_keeps_pollDiscipline (hs : PollDiscipline s) (h : step s = .next t) : PollDiscipline t := by
  obtain ⟨-, hc, hengine⟩ | ⟨op, rest, -, hprogram, rfl⟩ | ⟨-, -, -, rfl⟩ := step_cases s h
  · exact engineStep_keeps_pollDiscipline hs hc hengine
  · exact hostStep_keeps_pollDiscipline hs hprogram
  · exact hs

theorem pollDiscipline_start {ps : List Pseudo} (hprogram : s.program = expandAll ps) (hp : s.pend = none)
    (hcode : NoHostError s) : PollDiscipline s :=
  ⟨⟨ps, hprogram ▸ List.suffix_rfl⟩, .inl hp, hcode⟩

/-! ## Any number of steps -/

/-- Some number of steps leads from one state to the other. -/
abbrev StepsTo (s t : State) : Prop := Relation.ReflTransGen (fun s t => step s = .next t) s t

theorem runSteps_of_stepsTo (h : StepsTo s t) : ∃ n, runSteps n s = .next t := by
  induction h using Relation.ReflTransGen.head_induction_on with
  | refl => exact ⟨0, rfl⟩
  | head hstep _ ih =>
    obtain ⟨n, hn⟩ := ih
    exact ⟨n + 1, (runSteps_succ _ n hstep).trans hn⟩

theorem stepsTo_of_runSteps {n : Nat} (h : runSteps n s = .next t) : StepsTo s t := by
  induction n generalizing s with
  | zero => exact Host.Outcome.next.inj h ▸ .refl
  | succ n ih =>
    cases hstep : step s with
    | next u =>
      rw [runSteps_succ s n hstep] at h
      exact .head hstep (ih h)
    | fault f => simp [runSteps, hstep] at h
    | refused r => simp [runSteps, hstep] at h

/-- What holds at the start and is kept by every step holds after any number of steps. -/
theorem stepsTo_keeps {P : State → Prop} (hstep : ∀ s t, P s → step s = .next t → P t) (hs : P s)
    (h : StepsTo s t) : P t := by
  induction h with
  | refl => exact hs
  | tail _ hlast ih => exact hstep _ _ ih hlast

/-! ## A command depends on the spec state only -/

theorem sameSpecState_trans (h : SameSpecState s t) (h' : SameSpecState t u) : SameSpecState s u := by
  obtain ⟨htable, harg, hresult, herr, hecode, hpend⟩ := h
  simpa only [SameSpecState, htable, harg, hresult, herr, hecode, hpend] using h'

theorem sameSpecState_setResult (h : SameSpecState s t) (v : Word) : SameSpecState (s.setResult v) (t.setResult v) := by
  obtain ⟨htable, harg, -, hrest⟩ := h
  exact ⟨htable, harg, rfl, hrest⟩

theorem sameSpecState_setTable (h : SameSpecState s t) (T : List Word) :
    SameSpecState (s.setTable T) (t.setTable T) := by
  obtain ⟨-, hrest⟩ := h
  exact ⟨rfl, hrest⟩

theorem sameSpecState_retire (h : SameSpecState s t) : SameSpecState s.retire t.retire := by
  obtain ⟨htable, harg, hresult, herr, hecode, -⟩ := h
  exact ⟨htable, harg, hresult, herr, hecode, rfl⟩

theorem sameSpecState_raiseError (h : SameSpecState s t) (code : ErrorCode) :
    SameSpecState (s.raiseError code) (t.raiseError code) := by
  obtain ⟨htable, harg, hresult, herr, hecode, -⟩ := h
  simp [SameSpecState, State.raiseError_ecode, htable, harg, hresult, herr, hecode]

theorem sameSpecState_setArg? (h : SameSpecState s t) (v : Option Word) :
    SameSpecState (s.setArg? v) (t.setArg? v) := by
  obtain ⟨htable, -, hrest⟩ := id h
  cases v with
  | none => exact h
  | some v => exact ⟨htable, rfl, hrest⟩

/-- The same outcome, but for the host's side of the next state. -/
inductive SameOutcome : Host.Outcome State Fault Refusal → Host.Outcome State Fault Refusal → Prop
  | next {s t : State} (same : SameSpecState s t) : SameOutcome (.next s) (.next t)
  | fault (f : Fault) : SameOutcome (.fault f) (.fault f)
  | refused (r : Refusal) : SameOutcome (.refused r) (.refused r)

theorem sameOutcome_exec (i : Instr) (h : SameSpecState s t) : SameOutcome (exec i s) (exec i t) := by
  obtain ⟨htable, -, -, -, -, hpend⟩ := id h
  cases i with
  | nop => exact .next h
  | advance =>
    simp only [exec, execAdvance, htable]
    split
    · exact .next (sameSpecState_setResult (sameSpecState_setTable h _) _)
    · exact .next (sameSpecState_raiseError h _)
  | peeks =>
    simp only [exec, execPeeks, htable]
    split
    · exact .next (sameSpecState_setResult h _)
    · exact .next (sameSpecState_raiseError h _)
  | peeko =>
    simp only [exec, execPeeko, htable]
    split
    · exact .next (sameSpecState_setResult h _)
    · exact .next (sameSpecState_raiseError h _)
  | seed =>
    simp only [exec, execSeed, State.capturedArg, hpend]
    split
    · exact .fault _
    · split
      · exact .next (sameSpecState_raiseError h _)
      · exact .next (sameSpecState_setTable h _)
  | loadpush =>
    simp only [exec, execLoadpush, State.capturedArg, hpend, htable]
    split
    · exact .fault _
    · exact .next (sameSpecState_setTable h _)
  | readt idx =>
    simp only [exec, execReadt, htable]
    split
    · split
      · exact .next (sameSpecState_setResult h _)
      · exact .next (sameSpecState_raiseError h _)
    · exact .next (sameSpecState_raiseError h _)

theorem sameOutcome_execute (c : Word) (h : SameSpecState s t) : SameOutcome (execute c s) (execute c t) := by
  cases hd : decode c with
  | ok i => simpa only [execute_legal _ hd] using sameOutcome_exec i h
  | error e => simpa only [execute_illegal _ hd] using .next (sameSpecState_raiseError h _)

theorem sameOutcome_retire {o o' : Host.Outcome State Fault Refusal} (h : SameOutcome o o') :
    SameOutcome (retireOutcome o) (retireOutcome o') := by
  cases h with
  | next same => exact .next (sameSpecState_retire same)
  | fault f => exact .fault f
  | refused r => exact .refused r

theorem sameOutcome_engineStep (h : SameSpecState s t) : SameOutcome (engineStep s) (engineStep t) := by
  obtain ⟨-, -, -, herr, -, hpend⟩ := id h
  simp only [engineStep, herr, hpend]
  split
  · exact .next h
  · split
    · exact .next h
    · exact sameOutcome_retire (sameOutcome_execute _ h)

theorem sameOutcome_runCommand (p : Pending) (h : SameSpecState s t) :
    SameOutcome (runCommand p s) (runCommand p t) := by
  obtain ⟨htable, harg, hresult, herr, hecode, -⟩ := id h
  simp only [runCommand, herr]
  split
  · exact .next h
  · exact sameOutcome_engineStep ⟨htable, harg, hresult, rfl, hecode, rfl⟩

theorem atomicCommands_cons {c : Option Word × Instr} (cs : List (Option Word × Instr))
    (h : runCommand ⟨encode c.2, (s.setArg? c.1).arg⟩ (s.setArg? c.1) = .next t) :
    atomicCommands (c :: cs) s = atomicCommands cs t := by
  simp only [atomicCommands, h]

theorem sameOutcome_atomicCommands (cs : List (Option Word × Instr)) (h : SameSpecState s t) :
    SameOutcome (atomicCommands cs s) (atomicCommands cs t) := by
  induction cs generalizing s t with
  | nil => exact .next h
  | cons c cs ih =>
    have harg : SameSpecState (s.setArg? c.1) (t.setArg? c.1) := sameSpecState_setArg? h c.1
    obtain ⟨-, hvalue, -⟩ := id harg
    have hrun := sameOutcome_runCommand ⟨encode c.2, (t.setArg? c.1).arg⟩ harg
    simp only [atomicCommands, hvalue]
    generalize runCommand _ (s.setArg? c.1) = o at hrun ⊢
    generalize runCommand _ (t.setArg? c.1) = o' at hrun ⊢
    cases hrun with
    | next same => exact ih same
    | fault f => exact .fault f
    | refused r => exact .refused r

/-! ## The end of a program of pseudo-instructions -/

/-- From `s` the host comes to have `rest` still to do, in the spec state of the outcome `o`. -/
def ComesTo (s : State) (rest : List HostOp) (o : Host.Outcome State Fault Refusal) : Prop :=
  ∃ t u, StepsTo s t ∧ t.program = rest ∧ o = .next u ∧ SameSpecState t u

theorem comesTo_of_stepsTo {o : Host.Outcome State Fault Refusal} (h : StepsTo s t) (ht : ComesTo t rest o) :
    ComesTo s rest o := by
  obtain ⟨t', u, hsteps, hu⟩ := ht
  exact ⟨t', u, h.trans hsteps, hu⟩

theorem comesTo_of_step {o : Host.Outcome State Fault Refusal} (h : step s = .next t) (ht : ComesTo t rest o) :
    ComesTo s rest o :=
  comesTo_of_stepsTo (.single h) ht

theorem comesTo_of_sameOutcome {o o' : Host.Outcome State Fault Refusal} (h : ComesTo s rest o)
    (ho : SameOutcome o o') : ComesTo s rest o' := by
  obtain ⟨t, u, hsteps, hrest, rfl, hsame⟩ := h
  cases ho with
  | next same => exact ⟨t, _, hsteps, hrest, rfl, sameSpecState_trans hsame same⟩

/-- With no command pending the host moves. -/
theorem step_host_of_idle (hp : s.pend = none) (h : s.program = op :: rest) :
    step s = .next (hostStep op rest s) :=
  step_host s (mover_host s h (.inl hp))

/-- With no command pending POLL is done after one read. -/
theorem comesTo_poll_idle (hp : s.pend = none) (hprogram : s.program = .poll :: rest) : ComesTo s rest (.next s) := by
  have hstep := step_host_of_idle hp hprogram
  rw [hostStep_poll_idle hp] at hstep
  exact ⟨_, s, .single hstep, rfl, rfl, ⟨rfl, rfl, rfl, rfl, rfl, rfl⟩⟩

/-- Whatever the delay, POLL is left with the pending command completed (20_memory.md R43): each STATUS read with
BUSY = 1 brings the completion step one operation nearer. -/
theorem comesTo_poll_busy {p : Pending} (he : s.err = false) (hp : s.pend = some p)
    (hprogram : s.program = .poll :: rest) : ComesTo s rest (engineStep s) := by
  induction hwait : s.wait generalizing s with
  | zero =>
    obtain ⟨u, hu⟩ := engineStep_next s
    have hstep : step s = .next u := (step_engine s (mover_engine s he hp (.inr hwait))).trans hu
    obtain ⟨v, hv, rfl⟩ := engineStep_pending he hp hu
    rw [hu]
    exact comesTo_of_step hstep (comesTo_poll_idle rfl ((execute_program hv).trans hprogram))
  | succ n ih =>
    have hstep := step_host s (mover_host s hprogram (.inr (.inr (by omega))))
    rw [hostStep_poll_busy hp] at hstep
    refine comesTo_of_step hstep (comesTo_of_sameOutcome (ih he hp rfl ?_) ?_)
    · simp [hwait]
    · exact sameOutcome_engineStep ⟨rfl, rfl, rfl, rfl, rfl, rfl⟩

/-- A CMD write with its POLL is the command, issued and completed at once; a halted engine ignores it. -/
theorem comesTo_issueAndPoll {c : Word} (hp : s.pend = none) (hprogram : s.program = wrCmd c :: .poll :: rest) :
    ComesTo s rest (runCommand ⟨c, s.arg⟩ s) := by
  have hstep := step_host_of_idle hp hprogram
  cases he : s.err with
  | true =>
    rw [hostStep_wrCmd_halted c he] at hstep
    have hrun : runCommand ⟨c, s.arg⟩ s = .next s := by simp [runCommand, he]
    rw [hrun]
    exact comesTo_of_step hstep
      (comesTo_of_sameOutcome (comesTo_poll_idle hp rfl) (.next ⟨rfl, rfl, rfl, rfl, rfl, rfl⟩))
  | false =>
    rw [hostStep_wrCmd_idle c he hp] at hstep
    have hrun : runCommand ⟨c, s.arg⟩ s = engineStep { s with pend := some ⟨c, s.arg⟩ } := by simp [runCommand, he]
    rw [hrun]
    exact comesTo_of_step hstep
      (comesTo_of_sameOutcome (comesTo_poll_busy he rfl rfl) (sameOutcome_engineStep ⟨rfl, rfl, rfl, rfl, rfl, rfl⟩))

theorem pend_of_sameSpecState (h : SameSpecState t u) (hu : u.pend = none) : t.pend = none := by
  obtain ⟨-, -, -, -, -, hpend⟩ := h
  exact hpend.trans hu

/-- A command that was run is not pending any more (20_memory.md R42). -/
theorem runCommand_pend {p : Pending} (hp : s.pend = none) (h : runCommand p s = .next t) : t.pend = none := by
  unfold runCommand at h
  split at h
  case isTrue => exact Host.Outcome.next.inj h ▸ hp
  case isFalse he =>
    obtain ⟨u, -, rfl⟩ := engineStep_pending (by simpa using he) rfl h
    rfl

/-- The read of RESULT changes nothing of the spec state. -/
theorem comesTo_resultRead (i : Instr) (hp : s.pend = none) (hprogram : s.program = resultRead i ++ rest) :
    ComesTo s rest (.next s) := by
  have hread (h : s.program = rdResult :: rest) : ComesTo s rest (.next s) :=
    ⟨_, s, .single (step_host_of_idle hp h), rfl, rfl, ⟨rfl, rfl, rfl, rfl, rfl, rfl⟩⟩
  cases i with
  | nop | seed | loadpush => exact ⟨s, s, .refl, hprogram, rfl, ⟨rfl, rfl, rfl, rfl, rfl, rfl⟩⟩
  | advance | peeks | peeko | readt => exact hread hprogram

theorem comesTo_command (i : Instr) (hp : s.pend = none)
    (hprogram : s.program = wrCmd (encode i) :: .poll :: (resultRead i ++ rest)) :
    ComesTo s rest (runCommand ⟨encode i, s.arg⟩ s) := by
  obtain ⟨t, u, hsteps, hrest, hrun, hsame⟩ := comesTo_issueAndPoll hp hprogram
  have hpend : t.pend = none := pend_of_sameSpecState hsame (runCommand_pend hp hrun)
  rw [hrun]
  exact comesTo_of_stepsTo hsteps (comesTo_of_sameOutcome (comesTo_resultRead i hpend hrest) (.next hsame))

theorem comesTo_expandCommand (c : Option Word × Instr) (hp : s.pend = none)
    (hprogram : s.program = expandCommand c ++ rest) :
    ComesTo s rest (runCommand ⟨encode c.2, (s.setArg? c.1).arg⟩ (s.setArg? c.1)) := by
  obtain ⟨v, i⟩ := c
  cases v with
  | none => exact comesTo_command i hp hprogram
  | some v =>
    have hstep := step_host_of_idle hp hprogram
    rw [hostStep_wrArg] at hstep
    exact comesTo_of_step hstep
      (comesTo_of_sameOutcome (comesTo_command i hp rfl) (sameOutcome_runCommand _ ⟨rfl, rfl, rfl, rfl, rfl, rfl⟩))

theorem setArg?_pend (s : State) (v : Option Word) : (s.setArg? v).pend = s.pend := by
  cases v <;> rfl

theorem comesTo_commands (cs : List (Option Word × Instr)) (hp : s.pend = none)
    (hprogram : s.program = cs.flatMap expandCommand ++ rest) : ComesTo s rest (atomicCommands cs s) := by
  induction cs generalizing s with
  | nil => exact ⟨s, s, .refl, hprogram, rfl, ⟨rfl, rfl, rfl, rfl, rfl, rfl⟩⟩
  | cons c cs ih =>
    rw [List.flatMap_cons, List.append_assoc] at hprogram
    obtain ⟨t, u, hsteps, hrest, hrun, hsame⟩ := comesTo_expandCommand c hp hprogram
    have hpend : t.pend = none :=
      pend_of_sameSpecState hsame (runCommand_pend ((setArg?_pend s c.1).trans hp) hrun)
    rw [atomicCommands_cons cs hrun]
    exact comesTo_of_stepsTo hsteps (comesTo_of_sameOutcome (ih hpend hrest) (sameOutcome_atomicCommands cs hsame))

/-! ## SEED and LOADPUSH without a captured operand (10_state.md R27; log 12) -/

theorem exec_seed_no_operand (s : State) (hp : s.pend = none) : exec .seed s = .fault .noCapturedOperand := by
  simp [exec, execSeed, State.capturedArg, hp]

theorem exec_loadpush_no_operand (s : State) (hp : s.pend = none) :
    exec .loadpush s = .fault .noCapturedOperand := by
  simp [exec, execLoadpush, State.capturedArg, hp]

end Sys2Proof.Machine

namespace Sys2Proof

open Sys2Proof.Machine

/-- Settles O56: the completion step leaves no command pending, and the host's operations are those of an expansion. -/
theorem stepKeepsPollDiscipline : Obligations.StepKeepsPollDiscipline :=
  fun _ _ hs h => step_keeps_pollDiscipline hs h

/-- Settles O57: the state after reset has the empty program, the expansion of no pseudo-instructions. -/
theorem pollDisciplineAtStart : Obligations.PollDisciplineAtStart :=
  ⟨pollDiscipline_start (ps := []) rfl rfl (by decide),
    fun _ _ hprogram hp hbusy hbad => pollDiscipline_start hprogram hp ⟨hbusy, hbad⟩⟩

/-- Settles O53: the polling discipline holds at the start and every step keeps it. -/
theorem pseudoProgramsNeverViolate : Obligations.PseudoProgramsNeverViolate := by
  intro ps s t n hprogram hp hbusy hbad hrun
  have hstart : PollDiscipline s := pollDiscipline_start hprogram hp ⟨hbusy, hbad⟩
  obtain ⟨-, -, hcode⟩ :=
    stepsTo_keeps (fun _ _ => step_keeps_pollDiscipline) hstart (stepsTo_of_runSteps hrun)
  exact hcode

/-- Settles O54, command by command. -/
theorem pseudoProgramsRefineAtomicCommands : Obligations.PseudoProgramsRefineAtomicCommands := by
  intro ps s rest hprogram hp
  rw [expandAll_eq_commands] at hprogram
  obtain ⟨t, u, hsteps, hrest, hatomic, hsame⟩ := comesTo_commands _ hp hprogram
  obtain ⟨n, hn⟩ := runSteps_of_stepsTo hsteps
  exact ⟨n, t, u, hn, hrest, hatomic, hsame⟩

/-- Settles O25: there is no captured operand. -/
theorem constructionNeedsCapturedOperand : Obligations.ConstructionNeedsCapturedOperand :=
  fun s hp => ⟨exec_seed_no_operand s hp, exec_loadpush_no_operand s hp⟩

end Sys2Proof

/-! SUPPORT. The construction commands of 40_construction.md: LOADPUSH and the adoption of a table (R67 to R69), the
Park–Miller expansion of a seed (R60, R61, R65), and the raw sequence that SEED and the ADVANCEs after it follow (R62 to
R64, R70). -/

namespace Sys2Proof.Machine

variable {s t : State}

/-! ## Sequences of commands -/

/-- A legal command that is issued and completed is one run of its meaning, and its retirement (20_memory.md R42). -/
theorem runCommand_legal {p : Pending} {i : Instr} (he : s.err = false) (hi : decode p.word = .ok i)
    (ht : exec i { s with pend := some p } = .next t) : runCommand p s = .next t.retire := by
  have hstep := engineStep_enabled { s with pend := some p } he rfl
  rw [execute_legal _ hi, ht] at hstep
  rw [runCommand, if_neg (by simp [he])]
  exact hstep

theorem runCommands_cons {p : Pending} (ps : List Pending) (h : runCommand p s = .next t) :
    runCommands (p :: ps) s = runCommands ps t := by
  simp only [runCommands, h]

theorem runCommands_append {ps : List Pending} (qs : List Pending) (h : runCommands ps s = .next t) :
    runCommands (ps ++ qs) s = runCommands qs t := by
  induction ps generalizing s with
  | nil => rw [List.nil_append, Host.Outcome.next.inj h]
  | cons p ps ih =>
    cases hp : runCommand p s with
    | next u => exact (runCommands_cons (ps ++ qs) hp).trans (ih (runCommands_cons ps hp ▸ h))
    | fault f => simp [runCommands, hp] at h
    | refused r => simp [runCommands, hp] at h

/-! ## LOADPUSH (R67 to R69) -/

/-- Pushing words leaves the last 31 of the table and these words (00_scope.md R10). -/
theorem foldl_push_eq_drop (ws : List Word) {T : List Word} (h : T.length ≤ 31) :
    ws.foldl push T = (T ++ ws).drop (T.length + ws.length - 31) := by
  induction ws generalizing T with
  | nil => simp [Nat.sub_eq_zero_of_le h]
  | cons w ws ih =>
    rw [List.foldl_cons, ih (push_length_le h w)]
    by_cases hfull : T.length = 31
    · obtain ⟨y, T, rfl⟩ := List.exists_cons_of_length_eq_add_one hfull
      have hT : T.length = 30 := by simpa using hfull
      simp [push_full hfull, hT, show 31 + (ws.length + 1) - 31 = ws.length + 1 by omega]
    · simp [push_not_full hfull, show T.length + 1 + ws.length = T.length + (ws.length + 1) by omega]

/-- 31 words pushed into any table are the table (R68). -/
theorem foldl_push_adopts {ts T : List Word} (h : T.length ≤ 31) (hts : ts.length = 31) : ts.foldl push T = ts := by
  simp [foldl_push_eq_drop ts h, hts]

theorem decode_loadpush : decode 0x00000005 = .ok .loadpush := rfl

theorem runCommand_loadpush (w : Word) (he : s.err = false) :
    runCommand ⟨0x00000005, w⟩ s = .next { s with table := push s.table w, pend := none } :=
  have hexec := exec_loadpush { s with pend := some ⟨0x00000005, w⟩ } rfl
  have hrun := runCommand_legal (p := ⟨0x00000005, w⟩) he decode_loadpush hexec
  hrun

/-- A sequence of LOADPUSH commands pushes its operands and writes nothing else the spec names (R67). -/
theorem runCommands_loadpush (ws : List Word) (he : s.err = false) :
    ∃ t, runCommands (ws.map fun w => ⟨0x00000005, w⟩) s = .next t ∧ t.table = ws.foldl push s.table
      ∧ t.err = false ∧ t.arg = s.arg ∧ t.result = s.result := by
  induction ws generalizing s with
  | nil => exact ⟨s, rfl, rfl, he, rfl, rfl⟩
  | cons w ws ih =>
    rw [List.map_cons, runCommands_cons _ (runCommand_loadpush w he)]
    exact ih he

/-- READT of a full table returns the word at its logical index (42_table_access.md R83). -/
theorem exec_readt_full {idx : BitVec 5} {w : Word} (h : s.table.length = 31) (hw : s.table[idx.toNat]? = some w) :
    exec (.readt idx) s = .next (s.setResult w) := by
  obtain ⟨hidx, rfl⟩ := List.getElem?_eq_some_iff.mp hw
  refine exec_readt s (by omega) ?_
  rw [position_eq (by omega) (by omega)]
  simp only [h, show 31 - (31 - idx.toNat) = idx.toNat by omega]

/-! ## The Park–Miller step (R60, R61, R65) -/

/-- The truncating remainder, made non-negative, is the floored remainder (R61). -/
theorem tmod_made_nonneg (x : Int) :
    (if Int.tmod x 2147483647 < 0 then Int.tmod x 2147483647 + 2147483647 else Int.tmod x 2147483647)
      = x % 2147483647 := by
  rw [Int.tmod_eq_emod]
  split <;> split <;> omega

/-- A Park–Miller step is the floored remainder of the exact product (R61). -/
theorem pmStep_eq (w : Word) : pmStep w = BitVec.ofInt 32 ((16807 * s32 w) % 2147483647) :=
  congrArg (BitVec.ofInt 32) (tmod_made_nonneg (16807 * s32 w))

theorem pmStep_toNat (w : Word) : ((pmStep w).toNat : Int) = (16807 * w.toInt) % 2147483647 := by
  have hlow : 0 ≤ (16807 * w.toInt) % 2147483647 := Int.emod_nonneg _ (by decide)
  have hhigh : (16807 * w.toInt) % 2147483647 < 2147483647 := Int.emod_lt_of_pos _ (by decide)
  rw [pmStep_eq, BitVec.toNat_ofInt, s32, Int.emod_eq_of_lt hlow (Int.lt_trans hhigh (by decide)),
    Int.toNat_of_nonneg hlow]

theorem pmStep_le (w : Word) : (pmStep w).toNat ≤ 2147483646 := by
  have hhigh : (16807 * w.toInt) % 2147483647 < 2147483647 := Int.emod_lt_of_pos _ (by decide)
  rw [← pmStep_toNat] at hhigh
  omega

theorem pmStep_zero : pmStep 0 = 0 := by decide

/-- The multiplier and the modulus are coprime, so a Park–Miller step is 0 exactly on multiples of the modulus (R65). -/
theorem pmStep_eq_zero_iff_dvd (w : Word) : pmStep w = 0 ↔ (2147483647 : Int) ∣ w.toInt := by
  have hcoprime : IsCoprime (2147483647 : Int) 16807 := Int.isCoprime_iff_gcd_eq_one.mpr (by decide)
  calc pmStep w = 0 ↔ ((pmStep w).toNat : Int) = 0 := BitVec.toNat_inj.symm.trans Int.natCast_eq_zero.symm
    _ ↔ (2147483647 : Int) ∣ 16807 * w.toInt := by rw [pmStep_toNat, Int.dvd_iff_emod_eq_zero]
    _ ↔ (2147483647 : Int) ∣ w.toInt := ⟨hcoprime.dvd_of_dvd_mul_left, fun h => h.mul_left 16807⟩

/-- A nonzero word's Park–Miller step is 0 exactly where the word is the modulus or minus the modulus: no other nonzero
multiple of the modulus is a signed 32-bit number (R65). -/
theorem pmStep_eq_zero_iff {w : Word} (hw : w ≠ 0) : pmStep w = 0 ↔ w = 0x7FFFFFFF ∨ w = 0x80000001 := by
  rw [pmStep_eq_zero_iff_dvd]
  constructor
  · rintro ⟨q, hq⟩
    have hlow := BitVec.le_toInt w
    have hhigh := BitVec.toInt_lt (x := w)
    obtain hq0 | hq0 | hq0 : q = -1 ∨ q = 0 ∨ q = 1 := by omega
    · exact .inr (BitVec.eq_of_toInt_eq (by rw [hq, hq0]; rfl))
    · exact absurd (BitVec.eq_of_toInt_eq (by rw [hq, hq0]; rfl)) hw
    · exact .inl (BitVec.eq_of_toInt_eq (by rw [hq, hq0]; rfl))
  · rintro (rfl | rfl) <;> decide

/-! ## The expansion of a seed (R60) -/

theorem getElem?_pmChain {n i : Nat} (w : Word) (hi : i < n) : (pmChain n w)[i]? = some (pmStep^[i] w) := by
  induction n generalizing i w with
  | zero => omega
  | succ n ih =>
    cases i with
    | zero => rfl
    | succ i => exact ih (pmStep w) (Nat.lt_of_succ_lt_succ hi)

theorem getElem?_seedWords {S : Word} {i : Nat} (hi : i < 31) : (seedWords S)[i]? = some (pmStep^[i] S) :=
  getElem?_pmChain S hi

/-- Word `i` of the expansion is the `i`-th Park–Miller iterate of the seed (R60). -/
theorem getElem?_seedWords_eq_some {S v : Word} {i : Nat} (h : (seedWords S)[i]? = some v) :
    i < 31 ∧ pmStep^[i] S = v := by
  have hi : i < 31 := seedWords_length S ▸ (List.getElem?_eq_some_iff.mp h).1
  exact ⟨hi, Option.some.inj ((getElem?_seedWords hi).symm.trans h)⟩

/-- Each word of the expansion is the Park–Miller step of the word before it (R60). -/
theorem seedWords_succ {S v w : Word} {i : Nat} (hv : (seedWords S)[i]? = some v)
    (hw : (seedWords S)[i + 1]? = some w) : w = pmStep v := by
  obtain ⟨-, rfl⟩ := getElem?_seedWords_eq_some hv
  obtain ⟨-, rfl⟩ := getElem?_seedWords_eq_some hw
  exact Function.iterate_succ_apply' pmStep i S

/-- After the seed the expansion depends on the seed's Park–Miller step only. -/
theorem seedWords_tail (S : Word) : (seedWords S).tail = pmChain 30 (pmStep S) := rfl

theorem getElem?_seedWords_one (S : Word) : (seedWords S)[1]? = some (pmStep S) := rfl

/-! ## Tables cut from a sequence -/

/-- The 31 words of `f` from word `n` on, as a full table. -/
def wordsFrom (f : Nat → Word) (n : Nat) : List Word := (List.range 31).map fun j => f (n + j)

section wordsFrom

variable (f : Nat → Word) (n : Nat)

@[simp] theorem wordsFrom_length : (wordsFrom f n).length = 31 := by simp [wordsFrom]

theorem wordsFrom_getElem {j : Nat} (hj : j < (wordsFrom f n).length) : (wordsFrom f n)[j] = f (n + j) := by
  simp [wordsFrom]

/-- Pushing the word that comes next moves the table on by one word: both tables list the same 31 words. -/
theorem push_wordsFrom : push (wordsFrom f n) (f (n + 31)) = wordsFrom f (n + 1) := by
  rw [push_full (wordsFrom_length f n)]
  rfl

variable {f n}

theorem nextWord_wordsFrom (h : f (n + 31) = add32 (f (n + 28)) (f n)) :
    nextWord (wordsFrom f n) = some (f (n + 31)) := by
  simp [nextWord_full (wordsFrom_length f n), wordsFrom_getElem, h]

theorem updates_wordsFrom (h : ∀ i, n ≤ i → f (i + 31) = add32 (f (i + 28)) (f i)) (k : Nat) :
    updates k (wordsFrom f n) = wordsFrom f (n + k) := by
  induction k with
  | zero => rfl
  | succ k ih =>
    rw [updates_succ', ih, updateTable, nextWord_wordsFrom (h _ (Nat.le_add_right n k))]
    exact push_wordsFrom f (n + k)

theorem decode_advance : decode 0x00000001 = .ok .advance := rfl

/-- ADVANCE on a table cut from a recurrent sequence moves it on by one word and returns that word's output
(41_advance_peek.md R71). -/
theorem runCommand_advance_wordsFrom (a : Word) (h : f (n + 31) = add32 (f (n + 28)) (f n)) (he : s.err = false)
    (htable : s.table = wordsFrom f n) :
    runCommand ⟨0x00000001, a⟩ s
      = .next { s with table := wordsFrom f (n + 1), result := out (f (n + 31)), pend := none } := by
  refine runCommand_legal he (t := { s with
    table := wordsFrom f (n + 1), result := out (f (n + 31)), pend := some ⟨0x00000001, a⟩ }) decode_advance ?_
  simp [exec, execAdvance, htable, nextWord_wordsFrom h, push_wordsFrom, State.setTable, State.setResult]

theorem runCommands_advance_wordsFrom (a : Word) (h : ∀ i, n ≤ i → f (i + 31) = add32 (f (i + 28)) (f i))
    (he : s.err = false) (htable : s.table = wordsFrom f n) (k : Nat) :
    ∃ t, runCommands (List.replicate k ⟨0x00000001, a⟩) s = .next t ∧ t.err = false
      ∧ t.table = wordsFrom f (n + k) ∧ (k ≠ 0 → t.result = out (f (n + k + 30))) := by
  induction k with
  | zero => exact ⟨s, rfl, he, htable, fun hk => absurd rfl hk⟩
  | succ k ih =>
    obtain ⟨t, hrun, herr, hwords, -⟩ := ih
    have hlast := runCommand_advance_wordsFrom a (h _ (Nat.le_add_right n k)) herr hwords
    rw [List.replicate_succ', runCommands_append _ hrun, runCommands_cons [] hlast]
    exact ⟨_, rfl, herr, rfl, fun _ => rfl⟩

end wordsFrom

/-! ## The raw sequence of a seed (R64) -/

/-- The word `s_i` of the raw sequence of a seed (R64), by recursion on the index. -/
def rawSequence (S : Word) (i : Nat) : Word :=
  if i < 31 then pmStep^[i] S
  else if i < 34 then pmStep^[i - 31] S
  else add32 (rawSequence S (i - 3)) (rawSequence S (i - 31))

theorem rawSequence_expansion {S : Word} {i : Nat} (h : i < 31) : rawSequence S i = pmStep^[i] S := by
  rw [rawSequence, if_pos h]

theorem rawSequence_copy {S : Word} {i : Nat} (h : i < 3) : rawSequence S (i + 31) = rawSequence S i := by
  rw [rawSequence, if_neg (by omega), if_pos (by omega), rawSequence_expansion (by omega), Nat.add_sub_cancel]

theorem rawSequence_recurrence (S : Word) (i : Nat) :
    rawSequence S (i + 34) = add32 (rawSequence S (i + 31)) (rawSequence S (i + 3)) := by
  rw [rawSequence, if_neg (by omega), if_neg (by omega)]
  rfl

theorem isRawSequence_rawSequence (S : Word) : IsRawSequence S (rawSequence S) := by
  refine ⟨rawSequence_expansion (by decide), fun i hi => ?_, ⟨rawSequence_copy (by decide),
    rawSequence_copy (by decide), rawSequence_copy (by decide)⟩, rawSequence_recurrence S⟩
  rw [rawSequence_expansion (by omega), rawSequence_expansion (by omega), Function.iterate_succ_apply']
  exact pmStep_eq _

section IsRawSequence

variable {S : Word} {f : Nat → Word} (hf : IsRawSequence S f)
include hf

theorem isRawSequence_expansion {i : Nat} (hi : i < 31) : f i = pmStep^[i] S := by
  obtain ⟨hzero, hstep, -, -⟩ := hf
  induction i with
  | zero => exact hzero
  | succ i ih =>
    rw [Function.iterate_succ_apply', ← ih (by omega), pmStep_eq]
    exact hstep i (by omega)

/-- The recurrence of the raw sequence, for every table whose next word is word 34 or later (R64). -/
theorem isRawSequence_next {i : Nat} (hi : 3 ≤ i) : f (i + 31) = add32 (f (i + 28)) (f i) := by
  obtain ⟨-, -, -, hrec⟩ := hf
  obtain ⟨k, rfl⟩ := Nat.exists_eq_add_of_le' hi
  exact hrec k

/-- The expansion is words 0 to 30 of the raw sequence (R60, R64). -/
theorem seedWords_eq_wordsFrom : seedWords S = wordsFrom f 0 := by
  refine List.ext_getElem (by simp) fun i hi _ => Option.some.inj ?_
  have hi : i < 31 := seedWords_length S ▸ hi
  rw [← List.getElem?_eq_getElem, getElem?_seedWords hi, wordsFrom_getElem, Nat.zero_add,
    isRawSequence_expansion hf hi]

/-- The extension leaves words 3 to 33 (R62). -/
theorem extend_eq_wordsFrom : extend (seedWords S) = wordsFrom f 3 := by
  obtain ⟨-, -, ⟨hcopy0, hcopy1, hcopy2⟩, -⟩ := id hf
  rw [seedWords_eq_wordsFrom hf]
  calc extend (wordsFrom f 0) = push (push (push (wordsFrom f 0) (f 0)) (f 1)) (f 2) := rfl
    _ = push (push (push (wordsFrom f 0) (f 31)) (f 32)) (f 33) := by rw [hcopy0, hcopy1, hcopy2]
    _ = push (push (wordsFrom f 1) (f 32)) (f 33) := by rw [push_wordsFrom f 0]
    _ = push (wordsFrom f 2) (f 33) := by rw [push_wordsFrom f 1]
    _ = wordsFrom f 3 := push_wordsFrom f 2

/-- The warm-up leaves words 313 to 343 (R63). -/
theorem seedTable_eq_wordsFrom : seedTable S = wordsFrom f 313 := by
  have hwarm : updates 310 (wordsFrom f 3) = wordsFrom f 313 :=
    updates_wordsFrom (fun _ hi => isRawSequence_next hf hi) 310
  unfold seedTable
  rw [extend_eq_wordsFrom hf]
  exact hwarm

end IsRawSequence

end Sys2Proof.Machine

namespace Sys2Proof

open Sys2Proof.Machine

/-- Settles O24: LOADPUSH is a push of the captured operand, by SIZE. -/
theorem loadpushEffect : Obligations.LoadpushEffect := by
  intro s p hp
  rw [exec_loadpush s hp]
  constructor
  · intro hfull
    rw [push_full hfull]
    rfl
  · intro hsize
    rw [push_not_full (Nat.ne_of_lt hsize)]
    rfl

/-- Settles O28: the table is always cut from the raw sequence, at word 313 after SEED, and one word later after each
ADVANCE. -/
theorem seedThenAdvancesFollowRawSequence : Obligations.SeedThenAdvancesFollowRawSequence := by
  intro S hS
  have hraw : IsRawSequence S (rawSequence S) := isRawSequence_rawSequence S
  refine ⟨rawSequence S, hraw, ?_, ?_⟩
  · intro s c hp
    rw [exec_seed s hp, if_neg hS, seedTable_eq_wordsFrom hraw]
    rfl
  · intro s k a he htable
    obtain ⟨t, hrun, herr, hwords, hresult⟩ :=
      runCommands_advance_wordsFrom a (fun _ hi => isRawSequence_next hraw (by omega)) he htable k
    refine ⟨t, hrun, herr, hwords, fun hk => ?_⟩
    rw [hresult hk, show 313 + k + 30 = 343 + k by omega]
    rfl

/-- Settles O29: the truncating remainder, made non-negative, is the floored one, and each word of the expansion is a
Park–Miller step. -/
theorem remainderReadingsAgree : Obligations.RemainderReadingsAgree := by
  refine ⟨fun w => ⟨pmStep_toNat w, fun hneg => ?_, fun hnonneg => ?_⟩, fun S v w i hv hw => ?_⟩
  · rw [pmStep_toNat, ← tmod_made_nonneg, if_pos hneg]
  · rw [pmStep_toNat, ← tmod_made_nonneg, if_neg (Int.not_lt.mpr hnonneg)]
  · rw [seedWords_succ hv hw, pmStep_toNat]

/-- Settles O30: every word after the seed is a Park–Miller step, and 0 is a fixed point of it. -/
theorem expansionRanges : Obligations.ExpansionRanges := by
  refine ⟨fun S hS => ⟨seedWords_length S, rfl, ?_, ?_, ?_⟩, ?_, by decide, by decide⟩
  · intro i w hi hw
    obtain ⟨k, rfl⟩ := Nat.exists_eq_add_of_le' hi
    obtain ⟨-, rfl⟩ := getElem?_seedWords_eq_some hw
    rw [Function.iterate_succ_apply']
    exact pmStep_le _
  · rw [getElem?_seedWords_one, Option.some_inj]
    exact pmStep_eq_zero_iff hS
  · intro hone i hlow hhigh
    obtain ⟨k, rfl⟩ := Nat.exists_eq_add_of_le' hlow
    rw [getElem?_seedWords_one, Option.some_inj] at hone
    rw [getElem?_seedWords (by omega), Function.iterate_succ_apply, hone, Function.iterate_fixed pmStep_zero]
  · rw [seedWords_tail, seedWords_tail, show pmStep 0x80000000 = pmStep 0xFFFFFFFF by decide]

/-- Settles O39: 31 pushed words are the whole table, and READT reads a full table by logical index. -/
theorem loadTableRoundTrip : Obligations.LoadTableRoundTrip := by
  intro s ts hsize he hts
  obtain ⟨t, hrun, htable, herr, harg, hresult⟩ := runCommands_loadpush ts he
  rw [foldl_push_adopts hsize hts] at htable
  subst htable
  exact ⟨t, hrun, rfl, hts, herr, harg, hresult, fun _ _ hw => exec_readt_full hts hw⟩

end Sys2Proof

/-! SUPPORT. The update and output commands of 41_advance_peek.md: the output shifter and the sum it is applied to (R74,
R77, R78, R81), ADVANCE on a full table in terms of positions (R75), the recurrence (R76), the commands that leave T
alone (R79), and what a command depends on (R80). -/

namespace Sys2Proof.Machine

variable {s t : State}

/-! ## The output shifter (R74, R77, R78) -/

theorem out_toNat (w : Word) : (out w).toNat = w.toNat / 2 := by
  simp [out, BitVec.toNat_ushiftRight, Nat.shiftRight_eq_div_pow]

theorem out_toNat_le (w : Word) : (out w).toNat ≤ 2147483647 := by
  have hw : w.toNat < 2 ^ 32 := w.isLt
  rw [out_toNat]
  omega

theorem out_bit_31 (w : Word) : (out w).getLsbD 31 = false := by
  simp [out]

theorem out_bits_30_0 (w : Word) : (out w).extractLsb' 0 31 = w.extractLsb' 1 31 := by
  ext k hk
  simp [out]

/-- The carry identity (R78): the halves add up to the half of the sum, but for the carry of the two low bits. -/
theorem out_add32_toNat (x y : Word) :
    (out (add32 x y)).toNat = (x.toNat / 2 + y.toNat / 2 + (x.toNat % 2) * (y.toNat % 2)) % 2 ^ 31 := by
  rw [out_toNat, add32, BitVec.toNat_add]
  obtain hx | hx := Nat.mod_two_eq_zero_or_one x.toNat
  · rw [hx, Nat.zero_mul]
    omega
  · rw [hx, Nat.one_mul]
    omega

/-- No carry comes into bit 0 of a sum (R81). -/
theorem add32_bit_zero (x y : Word) : (add32 x y).getLsbD 0 = (x.getLsbD 0).xor (y.getLsbD 0) := by
  rw [add32, BitVec.getLsbD_add (by decide), BitVec.carry_zero, Bool.xor_false]

/-! ## Positions of a full table (R75) -/

section position

variable {T : List Word}

theorem position_full (h : T.length = 31) {k : Nat} (h1 : 1 ≤ k) (h2 : k ≤ 31) : position T k = T[31 - k]? := by
  rw [position, h, if_pos ⟨h1, h2⟩]

/-- The most recent word is the one pushed last (00_scope.md R9, R10). -/
theorem position_concat_one (T : List Word) (w : Word) : position (T ++ [w]) 1 = some w := by
  simp [position]

/-- A push into a full table moves every word that stays one position back (R75). -/
theorem position_tail_concat (h : T.length = 31) (w : Word) {k : Nat} (h1 : 1 ≤ k) (h2 : k ≤ 30) :
    position (T.tail ++ [w]) (k + 1) = position T k := by
  obtain ⟨y, T, rfl⟩ := List.exists_cons_of_length_eq_add_one h
  have hT : T.length = 30 := by simpa using h
  rw [position_full h h1 (by omega), position_full (by simp [hT]) (by omega) (by omega), List.tail_cons,
    List.getElem?_append_left (by omega), show 31 - k = (31 - (k + 1)) + 1 by omega, List.getElem?_cons_succ]

end position

/-- ADVANCE on a full table, its operands named by their positions (R71, R75). -/
theorem exec_advance_positions (h : s.table.length = 31) :
    ∃ x y, position s.table 3 = some x ∧ position s.table 31 = some y
      ∧ exec .advance s = .next { s with table := s.table.tail ++ [add32 x y], result := out (add32 x y) } := by
  refine ⟨s.table[28], s.table[0], ?_, ?_, exec_advance_full s h⟩
  · rw [position_full h (by decide) (by decide)]
    exact List.getElem?_eq_getElem _
  · rw [position_full h (by decide) (by decide)]
    exact List.getElem?_eq_getElem _

/-! ## The recurrence (R76) -/

/-- The words of a table and, from index 31 on, those of the recurrence. -/
def recurrentSequence (T : List Word) (i : Nat) : Word :=
  if i < 31 then T.getD i 0
  else add32 (recurrentSequence T (i - 3)) (recurrentSequence T (i - 31))
termination_by i

theorem recurrentSequence_table {T : List Word} {i : Nat} (hi : i < 31) : recurrentSequence T i = T.getD i 0 := by
  rw [recurrentSequence, if_pos hi]

theorem recurrentSequence_next (T : List Word) (i : Nat) :
    recurrentSequence T (i + 31) = add32 (recurrentSequence T (i + 28)) (recurrentSequence T i) := by
  rw [recurrentSequence, if_neg (by omega)]
  rfl

theorem getElem?_eq_recurrentSequence {T : List Word} (h : T.length = 31) {j : Nat} (hj : j < 31) :
    T[j]? = some (recurrentSequence T j) := by
  rw [recurrentSequence_table hj, List.getD_eq_getElem T 0 (by omega), List.getElem?_eq_getElem]

theorem eq_wordsFrom_recurrentSequence {T : List Word} (h : T.length = 31) :
    T = wordsFrom (recurrentSequence T) 0 := by
  refine List.ext_getElem (by simp [h]) fun j hj _ => Option.some.inj ?_
  rw [← List.getElem?_eq_getElem, getElem?_eq_recurrentSequence h (h ▸ hj), wordsFrom_getElem, Nat.zero_add]

/-! ## Commands that leave T alone (R79) -/

/-- On a full table such a command can only write RESULT: it raises no error. -/
theorem exec_leavesTable {p : Pending} (hp : LeavesTable p) (h : s.table.length = 31) :
    ∃ i t, decode p.word = .ok i ∧ exec i s = .next t ∧ t.table = s.table ∧ t.err = s.err := by
  obtain hi | hi | hi | ⟨idx, hi⟩ := hp
  · exact ⟨_, _, hi, exec_nop s, rfl, rfl⟩
  · exact ⟨_, _, hi, exec_peeks_full s h, rfl, rfl⟩
  · exact ⟨_, _, hi, exec_peeko_full s h, rfl, rfl⟩
  · have hidx : idx.toNat < s.table.length := by
      rw [h]
      exact Nat.lt_succ_of_le (decode_readt_index hi)
    exact ⟨_, _, hi, exec_readt_full h (List.getElem?_eq_getElem hidx), rfl, rfl⟩

theorem runCommand_leavesTable {p : Pending} (hp : LeavesTable p) (hs : Ready s) :
    ∃ t, runCommand p s = .next t ∧ t.table = s.table ∧ Ready t := by
  obtain ⟨hfull, he⟩ := hs
  obtain ⟨i, t, hi, hexec, htable, herr⟩ := exec_leavesTable (s := { s with pend := some p }) hp hfull
  exact ⟨t.retire, runCommand_legal he hi hexec, htable, htable ▸ hfull, herr.trans he⟩

theorem runCommands_leavesTable {ps : List Pending} (hps : ∀ p, p ∈ ps → LeavesTable p) (hs : Ready s) :
    ∃ t, runCommands ps s = .next t ∧ t.table = s.table ∧ Ready t := by
  induction ps generalizing s with
  | nil => exact ⟨s, rfl, rfl, hs⟩
  | cons p ps ih =>
    obtain ⟨u, hrun, hu, hready⟩ := runCommand_leavesTable (hps p List.mem_cons_self) hs
    obtain ⟨t, hruns, ht, hready'⟩ := ih (fun q hq => hps q (List.mem_cons_of_mem p hq)) hready
    exact ⟨t, (runCommands_cons ps hrun).trans hruns, ht.trans hu, hready'⟩

/-! ## What a command depends on (R80) -/

/-- The commands that write RESULT where they complete without an error (10_state.md R20). -/
def WritesResult (i : Instr) : Prop := i = .advance ∨ i = .peeks ∨ i = .peeko ∨ ∃ idx, i = .readt idx

/-- What a command reads of the state: the table and the pending operand, and ERR and ECODE where it raises an error. -/
abbrev SameInputs (s s' : State) : Prop :=
  s.table = s'.table ∧ s.err = s'.err ∧ s.ecode = s'.ecode ∧ s.pend = s'.pend

/-- What R80 compares of the states after a command: all of its inputs, and RESULT where the command wrote it. -/
abbrev SameEffects (i : Instr) (t t' : State) : Prop :=
  SameInputs t t' ∧ (WritesResult i → t.err = true ∨ t.result = t'.result)

section SameInputs

variable {s' : State} (h : SameInputs s s') (i : Instr)
include h

theorem sameInputs_raiseError (code : ErrorCode) : SameInputs (s.raiseError code) (s'.raiseError code) := by
  obtain ⟨htable, herr, hecode, -⟩ := h
  simp [SameInputs, State.raiseError_ecode, htable, herr, hecode]

theorem sameEffects_raiseError (code : ErrorCode) : SameEffects i (s.raiseError code) (s'.raiseError code) :=
  ⟨sameInputs_raiseError h code, fun _ => .inl (s.raiseError_err code)⟩

theorem sameEffects_setResult (v : Word) : SameEffects i (s.setResult v) (s'.setResult v) :=
  ⟨h, fun _ => .inr rfl⟩

theorem sameEffects_setTable_setResult (T : List Word) (v : Word) :
    SameEffects i ((s.setTable T).setResult v) ((s'.setTable T).setResult v) := by
  obtain ⟨-, hrest⟩ := h
  exact ⟨⟨rfl, hrest⟩, fun _ => .inr rfl⟩

theorem sameEffects_setTable (hi : ¬ WritesResult i) (T : List Word) :
    SameEffects i (s.setTable T) (s'.setTable T) := by
  obtain ⟨-, hrest⟩ := h
  exact ⟨⟨rfl, hrest⟩, fun hw => absurd hw hi⟩

theorem exec_sameEffects {p : Pending} (hp : s.pend = some p) :
    ∃ t t', exec i s = .next t ∧ exec i s' = .next t' ∧ SameEffects i t t' := by
  obtain ⟨htable, -, -, hpend⟩ := id h
  have hp' : s'.pend = some p := hpend ▸ hp
  cases i with
  | nop => exact ⟨s, s', exec_nop s, exec_nop s', h, by simp [WritesResult]⟩
  | advance =>
    simp only [exec, execAdvance, htable]
    split
    · exact ⟨_, _, rfl, rfl, sameEffects_setTable_setResult h _ _ _⟩
    · exact ⟨_, _, rfl, rfl, sameEffects_raiseError h _ _⟩
  | peeks =>
    simp only [exec, execPeeks, htable]
    split
    · exact ⟨_, _, rfl, rfl, sameEffects_setResult h _ _⟩
    · exact ⟨_, _, rfl, rfl, sameEffects_raiseError h _ _⟩
  | peeko =>
    simp only [exec, execPeeko, htable]
    split
    · exact ⟨_, _, rfl, rfl, sameEffects_setResult h _ _⟩
    · exact ⟨_, _, rfl, rfl, sameEffects_raiseError h _ _⟩
  | seed =>
    rw [exec_seed s hp, exec_seed s' hp']
    refine ⟨_, _, rfl, rfl, ?_⟩
    split
    · exact sameEffects_raiseError h _ _
    · exact sameEffects_setTable h _ (by simp [WritesResult]) _
  | loadpush =>
    rw [exec_loadpush s hp, exec_loadpush s' hp', htable]
    exact ⟨_, _, rfl, rfl, sameEffects_setTable h _ (by simp [WritesResult]) _⟩
  | readt idx =>
    simp only [exec, execReadt, htable]
    split
    · split
      · exact ⟨_, _, rfl, rfl, sameEffects_setResult h _ _⟩
      · exact ⟨_, _, rfl, rfl, sameEffects_raiseError h _ _⟩
    · exact ⟨_, _, rfl, rfl, sameEffects_raiseError h _ _⟩

end SameInputs

theorem sameInputs_retire {s' : State} (h : SameInputs s s') : SameInputs s.retire s'.retire := by
  obtain ⟨htable, herr, hecode, -⟩ := h
  exact ⟨htable, herr, hecode, rfl⟩

/-- The RESULT recorded for a command that writes it: the new state's, where no error was raised (R20). -/
theorem resultWritten_of_writesResult {p : Pending} {i : Instr} (hi : decode p.word = .ok i) (hw : WritesResult i)
    (h : runCommand p s = .next t) : resultWritten p s = if t.err then none else some t.result := by
  obtain rfl | rfl | rfl | ⟨idx, rfl⟩ := hw
  all_goals simp only [resultWritten, hi, h]

theorem resultWritten_eq_none {p : Pending} (h : ∀ i, decode p.word = .ok i → ¬ WritesResult i) (s : State) :
    resultWritten p s = none := by
  unfold resultWritten
  split
  · exact absurd (.inl rfl) (h _ ‹_›)
  · exact absurd (.inr (.inl rfl)) (h _ ‹_›)
  · exact absurd (.inr (.inr (.inl rfl))) (h _ ‹_›)
  · exact absurd (.inr (.inr (.inr ⟨_, rfl⟩))) (h _ ‹_›)
  · rfl

theorem resultWritten_sameEffects {p : Pending} {i : Instr} {s' t' : State} (hi : decode p.word = .ok i)
    (h : runCommand p s = .next t) (h' : runCommand p s' = .next t') (hsame : SameEffects i t t') :
    resultWritten p s = resultWritten p s' := by
  obtain ⟨⟨-, herr, -⟩, hresult⟩ := hsame
  by_cases hw : WritesResult i
  · rw [resultWritten_of_writesResult hi hw h, resultWritten_of_writesResult hi hw h', ← herr]
    split
    · rfl
    · rename_i he
      rw [(hresult hw).resolve_left he]
  · have hnone : ∀ j, decode p.word = .ok j → ¬ WritesResult j := fun j hj =>
      Except.ok.inj (hi.symm.trans hj) ▸ hw
    rw [resultWritten_eq_none hnone, resultWritten_eq_none hnone]

/-- An illegal word that is issued and completed raises ILLEGAL_CMD (60_exceptions.md R91). -/
theorem runCommand_illegal {p : Pending} {e : DecodeReject} (he : s.err = false) (hd : decode p.word = .error e) :
    runCommand p s = .next ({ s with pend := some p }.raiseError .illegalCmd).retire := by
  have hstep := engineStep_enabled { s with pend := some p } he rfl
  rw [execute_illegal _ hd] at hstep
  rw [runCommand, if_neg (by simp [he])]
  exact hstep

theorem runCommand_sameEffects {s' : State} (p : Pending) (htable : s.table = s'.table) (he : s.err = false)
    (he' : s'.err = false) (hecode : s.ecode = s'.ecode) :
    ∃ t t', runCommand p s = .next t ∧ runCommand p s' = .next t' ∧ SameInputs t t'
      ∧ resultWritten p s = resultWritten p s' := by
  have hinputs : SameInputs { s with pend := some p } { s' with pend := some p } :=
    ⟨htable, he.trans he'.symm, hecode, rfl⟩
  cases hd : decode p.word with
  | ok i =>
    obtain ⟨t, t', ht, ht', hsame, hresult⟩ := exec_sameEffects hinputs i rfl
    have hrun := runCommand_legal he hd ht
    have hrun' := runCommand_legal he' hd ht'
    have hretired : SameInputs t.retire t'.retire := sameInputs_retire hsame
    exact ⟨_, _, hrun, hrun', hretired, resultWritten_sameEffects hd hrun hrun' ⟨hretired, hresult⟩⟩
  | error e =>
    have hnone : ∀ i, decode p.word = .ok i → ¬ WritesResult i := fun i hi => by simp [hd] at hi
    refine ⟨_, _, runCommand_illegal he hd, runCommand_illegal he' hd, ?_, ?_⟩
    · exact sameInputs_retire (sameInputs_raiseError hinputs .illegalCmd)
    · rw [resultWritten_eq_none hnone, resultWritten_eq_none hnone]

end Sys2Proof.Machine

namespace Sys2Proof

open Sys2Proof.Machine

/-- Settles O31: the output of a word is its upper 31 bits; the bound is reached by the sum 0xFFFFFFFF. -/
theorem outputShifterRange : Obligations.OutputShifterRange := by
  refine ⟨fun w => ⟨out_toNat w, out_bit_31 w, out_bits_30_0 w⟩, fun s h => ⟨?_, ?_⟩, ?_⟩
  · exact ⟨_, exec_advance_full s h, out_toNat_le _⟩
  · exact ⟨_, exec_peeko_full s h, out_toNat_le _⟩
  · exact ⟨{ State.reset with table := 0xFFFFFFFF :: List.replicate 30 0 }, _, rfl, exec_advance_full _ rfl,
      by decide⟩

/-- Settles O32: the pushed word is at position -1, and `position_tail_concat` shifts the others. -/
theorem advanceShiftsPositions : Obligations.AdvanceShiftsPositions := by
  intro s h
  obtain ⟨x, y, hx, hy, hexec⟩ := exec_advance_positions h
  refine ⟨x, y, _, hx, hy, hexec, position_concat_one _ _, by simp [h], ?_,
    fun k h1 h2 => position_tail_concat h _ h1 h2⟩
  rw [position_full h (by decide) le_rfl, ← List.head?_eq_getElem?] at hy
  rw [List.dropLast_concat]
  exact (List.cons_head?_tail hy).symm

/-- Settles O33: RESULT is the output of the operands' sum. -/
theorem carryIdentity : Obligations.CarryIdentity := by
  intro s h
  obtain ⟨x, y, hx, hy, hexec⟩ := exec_advance_positions h
  exact ⟨x, y, _, hx, hy, hexec, out_add32_toNat x y⟩

/-- Settles O34: the pushed word is the operands' sum, and no carry comes into its bit 0. -/
theorem pushedWordParity : Obligations.PushedWordParity := by
  intro s h
  obtain ⟨x, y, hx, hy, hexec⟩ := exec_advance_positions h
  exact ⟨x, y, _, _, hx, hy, hexec, position_concat_one _ _, add32_bit_zero x y⟩

/-- Settles O35: the table is cut from its recurrent sequence at word 0, and each ADVANCE moves it on by one word. -/
theorem recurrenceOverAdvances : Obligations.RecurrenceOverAdvances := by
  rintro s ⟨hfull, he⟩
  refine ⟨recurrentSequence s.table, fun j hj => getElem?_eq_recurrentSequence hfull hj,
    recurrentSequence_next s.table, fun k a => ?_⟩
  obtain ⟨t, hrun, herr, htable, -⟩ := runCommands_advance_wordsFrom a (fun i _ => recurrentSequence_next s.table i)
    he (eq_wordsFrom_recurrentSequence hfull) k
  rw [Nat.zero_add] at htable
  exact ⟨t, hrun, herr, htable⟩

/-- Settles O36: PEEKS, PEEKO and ADVANCE take the same sum from the table, which the commands between leave alone. -/
theorem peekAgreesWithAdvance : Obligations.PeekAgreesWithAdvance := by
  intro s hs
  obtain ⟨hfull, -⟩ := id hs
  refine ⟨_, exec_peeks_full s hfull, exec_peeko_full s hfull, fun ps hps => ?_⟩
  obtain ⟨u, hrun, htable, hfull', -⟩ := runCommands_leavesTable hps hs
  refine ⟨u, _, hrun, htable, exec_advance_full u hfull', ?_, ?_⟩
  · simp only [htable, position_concat_one]
  · simp only [htable, out]

/-- Settles O37: the two runs differ in registers that no command reads. -/
theorem commandDeterminism : Obligations.CommandDeterminism := by
  intro s s' p htable he he' hcode hcode'
  obtain ⟨t, t', hrun, hrun', ⟨htable', herr, hecode, -⟩, hresult⟩ :=
    runCommand_sameEffects p htable he he' (hcode.trans hcode'.symm)
  exact ⟨t, t', hrun, hrun', htable', hresult, herr, hecode⟩

/-- Settles O22, by SIZE. -/
theorem advanceEffect : Obligations.AdvanceEffect := by
  refine ⟨fun s h => ?_, fun s h he => ?_⟩
  · exact ⟨_, _, List.getElem?_eq_getElem _, List.getElem?_eq_getElem _, exec_advance_full s h⟩
  · rw [exec_advance_not_full s h, State.raiseError_first s _ he]

/-- Settles O23, by SIZE. -/
theorem peekEffect : Obligations.PeekEffect := by
  refine ⟨fun s h => ?_, fun s h he => ?_⟩
  · exact ⟨_, _, List.getElem?_eq_getElem _, List.getElem?_eq_getElem _, exec_peeks_full s h, exec_peeko_full s h⟩
  · rw [exec_peeks_not_full s h, exec_peeko_not_full s h, State.raiseError_first s _ he]
    exact ⟨rfl, rfl⟩

end Sys2Proof

/-! SUPPORT. Table access and the equality of generators (42_table_access.md): READT and its errors (R83), the commands
that lack words (R88), the read-out of a full table (R85), equality of generators (R86), and what two equal generators
do under the same commands (R87). -/

namespace Sys2Proof.Machine

variable {s t : State}

/-! ## READT (R83) and the commands that lack words (R88) -/

/-- READT of an index whose slot holds a word returns that word (R83). -/
theorem exec_readt_held {idx : BitVec 5} (hidx : idx.toNat ≤ 30) (hsize : 31 - idx.toNat ≤ s.table.length) :
    exec (.readt idx) s = .next (s.setResult (s.table[s.table.length - (31 - idx.toNat)]'(by omega))) :=
  exec_readt s hidx (position_eq (by omega) hsize)

/-- READT of an index whose slot holds no word raises NOT_READY (R83). -/
theorem exec_readt_not_held {idx : BitVec 5} (hidx : idx.toNat ≤ 30) (hsize : s.table.length < 31 - idx.toNat) :
    exec (.readt idx) s = .next (s.raiseError .notReady) :=
  exec_readt_not_ready s hidx (position_eq_none_iff.mpr (.inr hsize))

/-- The commands that find too few words in the table (60_exceptions.md R92, 42_table_access.md R88). -/
def LacksWords (i : Instr) (s : State) : Prop :=
  ((i = .advance ∨ i = .peeks ∨ i = .peeko) ∧ s.size < 31) ∨ ∃ idx, i = .readt idx ∧ idx.toNat < 31 - s.size

theorem exec_of_lacksWords {i : Instr} (h : LacksWords i s) : exec i s = .next (s.raiseError .notReady) := by
  obtain ⟨rfl | rfl | rfl, hsize⟩ | ⟨idx, rfl, hidx⟩ := h
  · exact exec_advance_not_full s hsize.ne
  · exact exec_peeks_not_full s hsize.ne
  · exact exec_peeko_not_full s hsize.ne
  · unfold State.size at hidx
    exact exec_readt_not_held (by omega) (by omega)

/-- A command that does not lack words raises no error, or one other than NOT_READY (R88, 60_exceptions.md R92). -/
theorem exec_of_not_lacksWords {i : Instr} {p : Pending} (hp : s.pend = some p) (hsize : s.size ≤ 31)
    (h : ¬ LacksWords i s) :
    ∃ t, exec i s = .next t ∧ (t.err = s.err ∨ ∃ code, code ≠ .notReady ∧ t = s.raiseError code) := by
  have hfull (hi : i = .advance ∨ i = .peeks ∨ i = .peeko) : s.table.length = 31 :=
    hsize.antisymm (not_lt.mp fun hlt => h (.inl ⟨hi, hlt⟩))
  cases i with
  | nop => exact ⟨s, exec_nop s, .inl rfl⟩
  | advance => exact ⟨_, exec_advance_full s (hfull (by simp)), .inl rfl⟩
  | peeks => exact ⟨_, exec_peeks_full s (hfull (by simp)), .inl rfl⟩
  | peeko => exact ⟨_, exec_peeko_full s (hfull (by simp)), .inl rfl⟩
  | seed =>
    refine ⟨_, exec_seed s hp, ?_⟩
    split
    · exact .inr ⟨.zeroSeed, by decide, rfl⟩
    · exact .inl rfl
  | loadpush => exact ⟨_, exec_loadpush s hp, .inl rfl⟩
  | readt idx =>
    by_cases hidx : idx.toNat ≤ 30
    · have hheld : ¬ idx.toNat < 31 - s.table.length := fun hlt => h (.inr ⟨idx, rfl, hlt⟩)
      exact ⟨_, exec_readt_held hidx (by omega), .inl rfl⟩
    · exact ⟨_, exec_readt_index_31 s hidx, .inr ⟨.illegalCmd, by decide, rfl⟩⟩

/-- An engine that is not halted takes NOT_READY from exactly the commands that lack words (R88). -/
theorem exec_notReady_iff {i : Instr} {p : Pending} (he : s.err = false) (hp : s.pend = some p) (hsize : s.size ≤ 31) :
    ∃ t, exec i s = .next t ∧ (t.ecode = .notReady ∧ t.err = true ↔ LacksWords i s) := by
  by_cases h : LacksWords i s
  · exact ⟨_, exec_of_lacksWords h, by simp [State.raiseError_ecode, he, h]⟩
  · obtain ⟨t, hrun, herr | ⟨code, hcode, rfl⟩⟩ := exec_of_not_lacksWords hp hsize h
    · exact ⟨t, hrun, by simp [herr, he, h]⟩
    · exact ⟨_, hrun, by simp [State.raiseError_ecode, he, hcode, h]⟩

/-! ## The read-out of a full table (R85) -/

theorem resultsWritten_cons {p : Pending} (ps : List Pending) (h : runCommand p s = .next t) :
    resultsWritten (p :: ps) s = resultWritten p s :: resultsWritten ps t := by
  simp only [resultsWritten, h]

/-- READT j, issued and completed on a full table, writes `T[j]` (R83). -/
theorem resultWritten_readt {p : Pending} {idx : BitVec 5} (hs : Ready s) (hi : decode p.word = .ok (.readt idx)) :
    resultWritten p s = s.table[idx.toNat]? := by
  obtain ⟨hfull, he⟩ := hs
  have hidx : idx.toNat < s.table.length := hfull ▸ Nat.lt_succ_of_le (decode_readt_index hi)
  have hexec := exec_readt_full (s := { s with pend := some p }) hfull (List.getElem?_eq_getElem hidx)
  rw [resultWritten_of_writesResult hi (.inr (.inr (.inr ⟨idx, rfl⟩))) (runCommand_legal he hi hexec)]
  simp [he]

/-- Among commands that leave T alone, each READT j writes `T[j]`, wherever it stands (R85). -/
theorem resultsWritten_leavesTable {ps : List Pending} (hps : ∀ p, p ∈ ps → LeavesTable p) (hs : Ready s) :
    (resultsWritten ps s).length = ps.length
    ∧ ∀ (k : Nat) (p : Pending) (idx : BitVec 5), ps[k]? = some p → decode p.word = .ok (.readt idx) →
        (resultsWritten ps s)[k]? = some s.table[idx.toNat]? := by
  induction ps generalizing s with
  | nil => exact ⟨rfl, fun _ _ _ h => by simp at h⟩
  | cons q qs ih =>
    obtain ⟨u, hrun, htable, hready⟩ := runCommand_leavesTable (hps q List.mem_cons_self) hs
    obtain ⟨hlength, hread⟩ := ih (fun p hp => hps p (List.mem_cons_of_mem q hp)) hready
    rw [resultsWritten_cons qs hrun]
    refine ⟨by simp [hlength], fun k p idx hk hi => ?_⟩
    cases k with
    | zero =>
      obtain rfl : q = p := by simpa using hk
      exact congrArg some (resultWritten_readt hs hi)
    | succ k => exact htable ▸ hread k p idx hk hi

/-- The word of READT j (30_encoding.md R51). -/
theorem decode_readt_word {j : Nat} (hj : j < 31) :
    decode (BitVec.ofNat 32 (0x6 + 16 * j)) = .ok (.readt (BitVec.ofNat 5 j)) := by
  have hword : (BitVec.ofNat 32 (0x6 + 16 * j)).toNat = 6 + 16 * j := by
    rw [BitVec.toNat_ofNat]
    omega
  have hlegal : LegalWord (BitVec.ofNat 32 (0x6 + 16 * j)) := by
    unfold LegalWord
    omega
  rw [decode_legal_readt hlegal (by omega), show (BitVec.ofNat 32 (0x6 + 16 * j)).toNat / 16 % 32 = j by omega]

/-- The commands READT 0 to READT 30, in order (R85). -/
def readAll (a : Word) : List Pending := (List.range 31).map fun j => ⟨BitVec.ofNat 32 (0x6 + 16 * j), a⟩

@[simp] theorem readAll_length (a : Word) : (readAll a).length = 31 := by simp [readAll]

theorem readAll_getElem? {a : Word} {j : Nat} (hj : j < 31) :
    (readAll a)[j]? = some ⟨BitVec.ofNat 32 (0x6 + 16 * j), a⟩ := by
  simp [readAll, hj]

theorem readAll_leavesTable {a : Word} : ∀ p, p ∈ readAll a → LeavesTable p := by
  intro p hp
  obtain ⟨j, hj, rfl⟩ := List.mem_map.mp hp
  exact .inr (.inr (.inr ⟨_, decode_readt_word (List.mem_range.mp hj)⟩))

/-- READT 0 to READT 30 write the table, oldest word first (R85). -/
theorem resultsWritten_readAll (a : Word) (hs : Ready s) : resultsWritten (readAll a) s = s.table.map some := by
  obtain ⟨hfull, -⟩ := id hs
  obtain ⟨hlength, hread⟩ := resultsWritten_leavesTable (readAll_leavesTable (a := a)) hs
  rw [readAll_length] at hlength
  refine List.ext_getElem (by rw [hlength, List.length_map, hfull]) fun j hj _ => Option.some.inj ?_
  rw [hlength] at hj
  rw [← List.getElem?_eq_getElem, hread j _ _ (readAll_getElem? hj) (decode_readt_word hj), List.getElem_map,
    BitVec.toNat_ofNat, Nat.mod_eq_of_lt (by omega), List.getElem?_eq_getElem]

/-! ## Equality of generators (R86) -/

/-- Two generators are equal iff they are full and their tables are the same list (R86). -/
theorem sameGenerator_iff : sameGenerator s t ↔ s.size = 31 ∧ s.table = t.table := by
  constructor
  · rintro ⟨hs, ht, hwords⟩
    unfold State.size at hs ht
    exact ⟨hs, List.ext_getElem?' fun j hj => hwords j (by simpa [hs, ht] using hj)⟩
  · rintro ⟨hs, htable⟩
    exact ⟨hs, (congrArg List.length htable).symm.trans hs, fun j _ => by rw [htable]⟩

/-! ## Equal generators under the same commands (R87)

Equal generators can differ in ECODE even while neither is halted, and `runCommand_sameEffects` compares states of one
ECODE. `State.recode` closes that gap: it replaces an ECODE that means nothing, and every command commutes with it. -/

/-- ECODE replaced where it is not the record of an error (10_state.md R24). -/
def State.recode (s : State) (c : ErrorCode) : State := if s.err then s else { s with ecode := c }

namespace State

variable (s : State) (c : ErrorCode)

theorem recode_running (h : s.err = false) : s.recode c = { s with ecode := c } := by simp [recode, h]
theorem recode_halted (h : s.err = true) : s.recode c = s := by simp [recode, h]

@[simp] theorem recode_table : (s.recode c).table = s.table := by unfold recode; split <;> rfl
@[simp] theorem recode_result : (s.recode c).result = s.result := by unfold recode; split <;> rfl
@[simp] theorem recode_err : (s.recode c).err = s.err := by unfold recode; split <;> rfl
@[simp] theorem recode_capturedArg : (s.recode c).capturedArg = s.capturedArg := by unfold recode; split <;> rfl

theorem recode_pend (q : Option Pending) : { s.recode c with pend := q } = { s with pend := q }.recode c := by
  unfold recode; split <;> rfl

@[simp] theorem setResult_recode (v : Word) : (s.recode c).setResult v = (s.setResult v).recode c := by
  unfold recode setResult; split <;> rfl
@[simp] theorem setTable_recode (T : List Word) : (s.recode c).setTable T = (s.setTable T).recode c := by
  unfold recode setTable; split <;> rfl
@[simp] theorem retire_recode : (s.recode c).retire = s.retire.recode c := by
  unfold recode retire; split <;> rfl

/-- The first error overwrites ECODE, a later one leaves it (60_exceptions.md R93, R94). -/
@[simp] theorem raiseError_recode (code : ErrorCode) : (s.recode c).raiseError code = (s.raiseError code).recode c := by
  rw [recode_halted _ c (s.raiseError_err code)]
  cases he : s.err with
  | false => rw [recode_running s c he, raiseError_first s code he]; exact raiseError_first _ code he
  | true => rw [recode_halted s c he]

end State

/-- No command reads ECODE. -/
theorem exec_recode {i : Instr} (c : ErrorCode) (h : exec i s = .next t) :
    exec i (s.recode c) = .next (t.recode c) := by
  cases i with
  | nop => cases h; rfl
  | advance =>
    simp only [exec, execAdvance, State.recode_table] at h ⊢
    split at h <;> cases h <;> simp
  | peeks =>
    simp only [exec, execPeeks, State.recode_table] at h ⊢
    split at h <;> cases h <;> simp
  | peeko =>
    simp only [exec, execPeeko, State.recode_table] at h ⊢
    split at h <;> cases h <;> simp
  | seed =>
    simp only [exec, execSeed, State.recode_capturedArg] at h ⊢
    split at h <;> cases h
    split <;> simp
  | loadpush =>
    simp only [exec, execLoadpush, State.recode_capturedArg, State.recode_table] at h ⊢
    split at h <;> cases h
    simp
  | readt idx =>
    simp only [exec, execReadt, State.recode_table] at h ⊢
    by_cases hidx : idx.toNat ≤ 30
    · rw [if_pos hidx] at h ⊢
      split at h <;> cases h <;> simp
    · rw [if_neg hidx] at h ⊢
      cases h; simp

/-- A halted engine ignores a command (60_exceptions.md R94). -/
theorem runCommand_halted (p : Pending) (he : s.err = true) : runCommand p s = .next s := by
  simp [runCommand, he]

/-- The RESULT recorded for a command is read off the state after it (R20): it depends on no more of that state than
ERR and, where that is 0, RESULT. -/
theorem resultWritten_congr {p : Pending} {s' t' : State} (h : runCommand p s = .next t)
    (h' : runCommand p s' = .next t') (herr : t.err = t'.err) (hresult : t.err = true ∨ t.result = t'.result) :
    resultWritten p s = resultWritten p s' := by
  by_cases hw : ∃ i, decode p.word = .ok i ∧ WritesResult i
  · obtain ⟨i, hi, hw⟩ := hw
    rw [resultWritten_of_writesResult hi hw h, resultWritten_of_writesResult hi hw h', ← herr]
    obtain he | hresult := hresult
    · rw [if_pos he, if_pos he]
    · rw [hresult]
  · have hnone (i : Instr) (hi : decode p.word = .ok i) : ¬ WritesResult i := fun hwi => hw ⟨i, hi, hwi⟩
    rw [resultWritten_eq_none hnone, resultWritten_eq_none hnone]

theorem runCommand_recode (p : Pending) (c : ErrorCode) (he : s.err = false) :
    ∃ t, runCommand p s = .next t ∧ runCommand p (s.recode c) = .next (t.recode c) := by
  have hpend := s.recode_pend c (some p)
  have he' : (s.recode c).err = false := (s.recode_err c).trans he
  cases hd : decode p.word with
  | ok i =>
    obtain ⟨u, hu⟩ := exec_next_of_pending { s with pend := some p } i rfl
    refine ⟨_, runCommand_legal he hd hu, ?_⟩
    rw [runCommand_legal he' hd (hpend ▸ exec_recode c hu), State.retire_recode]
  | error e =>
    refine ⟨_, runCommand_illegal he hd, ?_⟩
    rw [runCommand_illegal he' hd, hpend, State.raiseError_recode, State.retire_recode]

/-- A command leaves a full table full (10_state.md R16). -/
theorem runCommand_size {p : Pending} (hs : s.size = 31) (h : runCommand p s = .next t) : t.size = 31 := by
  unfold runCommand at h
  split at h
  · cases h; exact hs
  · obtain rfl | ⟨-, q, -, ⟨i, u, -, hu, rfl⟩ | ⟨-, rfl⟩⟩ := engineStep_cases _ h
    · exact hs
    · obtain ⟨hle, hmax⟩ := exec_size (s := { s with pend := some p }) hs.le hu
      exact hmax.antisymm (hs.ge.trans hle)
    · simpa [State.size] using hs

/-- One command on two equal generators that are not halted (R87). -/
theorem runCommand_sameGenerator (p : Pending) (h : sameGenerator s t) (he : s.err = false) (he' : t.err = false) :
    ∃ s' t', runCommand p s = .next s' ∧ runCommand p t = .next t' ∧ sameGenerator s' t' ∧ s'.err = t'.err
      ∧ resultWritten p s = resultWritten p t := by
  obtain ⟨hfull, htable⟩ := sameGenerator_iff.mp h
  obtain ⟨t', hrun', hrecode⟩ := runCommand_recode p s.ecode he'
  obtain ⟨s', u, hrun, hu, ⟨htable', herr, -⟩, hresult⟩ := runCommand_sameEffects (s' := t.recode s.ecode) p
    (htable.trans (t.recode_table s.ecode).symm) he ((t.recode_err s.ecode).trans he')
    (by rw [t.recode_running s.ecode he'])
  obtain rfl : t'.recode s.ecode = u := Host.Outcome.next.inj (hrecode.symm.trans hu)
  rw [State.recode_table] at htable'
  rw [State.recode_err] at herr
  have hresult' := resultWritten_congr hrecode hrun' (t'.recode_err s.ecode) (.inr (t'.recode_result s.ecode))
  exact ⟨s', t', hrun, hrun', sameGenerator_iff.mpr ⟨runCommand_size hfull hrun, htable'⟩, herr,
    hresult.trans hresult'⟩

/-- Two equal generators run alike, also once an error has halted both (R87, 60_exceptions.md R94). -/
theorem runCommands_sameGenerator (ps : List Pending) (h : sameGenerator s t) (herr : s.err = t.err) :
    ∃ s' t', runCommands ps s = .next s' ∧ runCommands ps t = .next t' ∧ sameGenerator s' t' ∧ s'.err = t'.err
      ∧ resultsWritten ps s = resultsWritten ps t := by
  induction ps generalizing s t with
  | nil => exact ⟨s, t, rfl, rfl, h, herr, rfl⟩
  | cons p ps ih =>
    have hstep : ∃ u v, runCommand p s = .next u ∧ runCommand p t = .next v ∧ sameGenerator u v ∧ u.err = v.err
        ∧ resultWritten p s = resultWritten p t := by
      cases he : s.err with
      | false => exact runCommand_sameGenerator p h he (herr ▸ he)
      | true =>
        have he' : t.err = true := herr ▸ he
        have hrun := runCommand_halted p he
        have hrun' := runCommand_halted p he'
        exact ⟨s, t, hrun, hrun', h, herr, resultWritten_congr hrun hrun' herr (.inl he)⟩
    obtain ⟨u, v, hrun, hrun', hsame, herr', hresult⟩ := hstep
    obtain ⟨s', t', hruns, hruns', hsame', herr'', hresults⟩ := ih hsame herr'
    refine ⟨s', t', (runCommands_cons ps hrun).trans hruns, (runCommands_cons ps hrun').trans hruns', hsame', herr'',
      ?_⟩
    rw [resultsWritten_cons ps hrun, resultsWritten_cons ps hrun', hresult, hresults]

end Sys2Proof.Machine

namespace Sys2Proof

open Sys2Proof.Machine

/-- Settles O26, by where the index lies. -/
theorem readtEffect : Obligations.ReadtEffect := by
  refine fun s idx => ⟨fun hidx hheld => ?_, fun hidx hnot he => ?_, fun hidx he => ?_⟩
  · exact ⟨_, List.getElem?_eq_getElem _, exec_readt_held hidx hheld⟩
  · rw [exec_readt_not_held hidx hnot, s.raiseError_first _ he]
  · rw [exec_readt_index_31 s (by omega), s.raiseError_first _ he]

/-- Settles O38: commands that leave T alone read the same full table, in any order. -/
theorem tableView : Obligations.TableView := by
  refine fun s hs => ⟨fun ps hps => ?_, resultsWritten_readAll s.arg hs⟩
  obtain ⟨t, hrun, htable, -, he⟩ := runCommands_leavesTable hps hs
  exact ⟨t, hrun, htable, he, resultsWritten_leavesTable hps hs⟩

/-- Settles O40: the completion step raises NOT_READY iff its command lacks words. -/
theorem notReadyExactly : Obligations.NotReadyExactly := by
  intro s p i hsize he hp hi
  obtain ⟨t, hrun, hiff⟩ := exec_notReady_iff (i := i) he hp hsize
  refine ⟨t.retire, ?_, hiff⟩
  rw [engineStep_enabled s he hp, execute_legal s hi, hrun]
  rfl

/-- Settles O43: equality is that of the tables; a table of one 1 and thirty 0s is not its own rotation. -/
theorem generatorEquality : Obligations.GeneratorEquality := by
  refine ⟨fun s t hs _ => ?_, fun s hs => ?_, fun s t h => ?_, fun s t u h h' => ?_, ?_⟩
  · exact sameGenerator_iff.trans (and_iff_right hs)
  · exact sameGenerator_iff.mpr ⟨hs, rfl⟩
  · obtain ⟨hs, ht, hwords⟩ := h
    exact ⟨ht, hs, fun j hj => (hwords j hj).symm⟩
  · obtain ⟨hs, -, hwords⟩ := h
    obtain ⟨-, hu, hwords'⟩ := h'
    exact ⟨hs, hu, fun j hj => (hwords j hj).trans (hwords' j hj)⟩
  · refine ⟨{ State.reset with table := 1 :: List.replicate 30 0 },
      { State.reset with table := (1 :: List.replicate 30 0).rotate 1 }, rfl, rfl, rfl, fun h => ?_⟩
    have htable := (sameGenerator_iff.mp h).2
    exact absurd htable (by decide)

/-- Settles O44: equal generators, both running or both halted, take every command alike. -/
theorem equalGeneratorsRunAlike : Obligations.EqualGeneratorsRunAlike :=
  fun _ _ ps h he he' => runCommands_sameGenerator ps h (he.trans he'.symm)

/-- Settles O21: NOP answers its state, and its completion step retires it. -/
theorem nopEffect : Obligations.NopEffect := by
  refine ⟨exec_nop, fun s a he hp => ?_⟩
  have hnop : decode 0x00000000 = .ok .nop := rfl
  rw [engineStep_enabled s he hp, execute_legal s hnop, exec_nop]
  rfl

end Sys2Proof

/-! SUPPORT. The errors and the halt of 60_exceptions.md: the completion step that raises an error (R91, R93, R95), the
halted engine (R94), a CMD write while busy (R96), the step where no agent moves (R106), and the all-zero table
(R108). -/

namespace Sys2Proof.Machine

variable {s t : State}

/-! ## The completion step that raises an error (R93) -/

/-- An error has discarded the pending command already. -/
theorem retire_raiseError (s : State) (code : ErrorCode) : (s.raiseError code).retire = s.raiseError code := by
  unfold State.raiseError State.retire
  split <;> rfl

/-- Where Execute raises an error, the completion step writes ERR, ECODE and PEND only (R93). -/
theorem engineStep_raiseError {p : Pending} {code : ErrorCode} (he : s.err = false) (hp : s.pend = some p)
    (h : execute p.word s = .next (s.raiseError code)) :
    engineStep s = .next { s with err := true, ecode := code, pend := none } := by
  rw [engineStep_enabled s he hp, h, retireOutcome, retire_raiseError, s.raiseError_first code he]

/-- A completion step that sets ERR took one of the three errors of a completion step, and did nothing else (R93). -/
theorem engineStep_error_cases (he : s.err = false) (h : engineStep s = .next t) (herr : t.err = true) :
    ∃ code, (code = .illegalCmd ∨ code = .zeroSeed ∨ code = .notReady) ∧ t = s.raiseError code := by
  obtain rfl | ⟨-, p, -, ⟨i, u, -, hu, rfl⟩ | ⟨-, rfl⟩⟩ := engineStep_cases s h
  · simp [he] at herr
  · obtain ⟨hkept, -⟩ | ⟨code, hcode, rfl⟩ := exec_error_cases hu
    · simp [hkept, he] at herr
    · exact ⟨code, hcode, retire_raiseError s code⟩
  · exact ⟨.illegalCmd, .inl rfl, rfl⟩

theorem decode_seed : decode 0x00000004 = .ok .seed := rfl

/-- SEED checks its operand before anything else (R95). -/
theorem exec_seed_zero {c : Word} (hp : s.pend = some ⟨c, 0⟩) : exec .seed s = .next (s.raiseError .zeroSeed) :=
  exec_seed s hp

/-! ## The halted engine (R94) -/

/-- A host access other than RESET never writes RESULT (70_reset_and_hazards.md R122). -/
theorem access_result (h : AccessEffect s t) : t.result = s.result := by
  cases h with
  | unchanged same | argWritten _ same | issued _ _ _ same =>
    obtain ⟨-, -, hresult, -⟩ := same
    exact hresult
  | error code _ same =>
    obtain ⟨-, -, hresult, -⟩ := same
    exact hresult.trans (s.raiseError_result code)

/-- A halted engine keeps ERR and ECODE, whatever error comes (R94). -/
theorem errKept_of_halted (he : s.err = true) (h : ErrKeptOrRaised s t) : t.err = true ∧ t.ecode = s.ecode := by
  obtain ⟨herr, hecode⟩ | ⟨code, -, herr, hecode⟩ := h
  · exact ⟨herr.trans he, hecode⟩
  · exact ⟨herr, hecode.trans (if_pos he)⟩

/-- A step of a halted engine is a RESET, or keeps ERR, ECODE, T and RESULT (R94). -/
theorem step_halted (he : s.err = true) (h : step s = .next t) :
    (∃ rest, s.program = .reset :: rest)
    ∨ (t.err = true ∧ t.ecode = s.ecode ∧ t.table = s.table ∧ t.result = s.result) := by
  cases step_effect h with
  | held same =>
    subst same
    exact .inr ⟨he, rfl, rfl, rfl⟩
  | completed i u running _ _ => simp [he] at running
  | illegal running _ => simp [he] at running
  | reset rest next _ => exact .inl ⟨rest, next⟩
  | access effect =>
    obtain ⟨herr, hecode⟩ := errKept_of_halted he (access_errKeptOrRaised effect)
    exact .inr ⟨herr, hecode, access_table effect, access_result effect⟩

/-! ## A CMD write while busy (R96) -/

theorem hostStep_wrCmd_busy (c : Word) (rest : List HostOp) (he : s.err = false) (hp : s.pend ≠ none) :
    hostStep (wrCmd c) rest s = (s.raiseError .busyViolation).takeOp rest :=
  (writeCmd_busy (s := s.takeOp rest) c he hp).trans (raiseError_takeOp s rest .busyViolation)

/-! ## Which steps there are (R89, R106) -/

/-- No agent moves where the host program is used up and no completion step is enabled (R106). -/
theorem mover_idle (h : s.program = []) (hn : s.pend = none ∨ s.err = true) : s.mover = .idle := by
  obtain hn | hn := hn <;> simp [State.mover, h, State.completionEnabled, State.busy, hn]

/-- Whichever agent moves, there is a next state (R89, R93). -/
theorem step_next (s : State) : ∃ t, step s = .next t := by
  cases hm : s.mover with
  | engine => exact step_engine s hm ▸ engineStep_next s
  | host op rest => exact ⟨_, step_host s hm⟩
  | idle => exact ⟨s, step_idle s hm⟩

/-! ## The all-zero table (R108) -/

theorem wordsFrom_zero (n : Nat) : wordsFrom (fun _ => 0) n = List.replicate 31 0 := rfl

theorem add32_zero : add32 0 0 = 0 := by decide

theorem out_zero : out 0 = 0 := by decide

end Sys2Proof.Machine

namespace Sys2Proof

open Sys2Proof.Machine

/-- Settles O5: the completion step executes the word, which is illegal. -/
theorem illegalWordCompletion : Obligations.IllegalWordCompletion := by
  intro s p he hp hillegal
  obtain ⟨e, hdecode⟩ := decode_illegal hillegal
  exact engineStep_raiseError he hp (execute_illegal s hdecode)

/-- Settles O12: the host moves, and its CMD write finds the engine busy. -/
theorem busyViolationStep : Obligations.BusyViolationStep := by
  intro s c rest hprogram he hp hwait
  have hstep : step s = .next (hostStep (wrCmd c) rest s) := step_host s (mover_host s hprogram (.inr (.inr hwait)))
  rw [hostStep_wrCmd_busy c rest he hp, s.raiseError_first _ he] at hstep
  exact ⟨_, hstep, ⟨rfl, rfl, rfl, rfl, rfl, rfl⟩, rfl⟩

/-- Settles O16: an error of a completion step is one `raiseError` of the state before. -/
theorem errorsArePrecise : Obligations.ErrorsArePrecise := by
  refine ⟨fun s code => ⟨s.raiseError_first code, s.raiseError_halted code⟩, fun s t he h herr => ?_⟩
  obtain ⟨code, hcode, rfl⟩ := engineStep_error_cases he h herr
  rw [s.raiseError_first code he]
  exact ⟨hcode, rfl⟩

/-- Settles O17, access by access; what a step keeps is `step_halted`. -/
theorem haltedEngine : Obligations.HaltedEngine := by
  intro s he
  refine ⟨engineStep_halted s he, fun c => ?_, fun v => ?_, fun off n hok => ?_, fun off n hbad => ?_, ?_⟩
  · exact (hostWrite_reg s c windowReg_cmd).trans (writeCmd_halted c he)
  · exact hostWrite_reg s v windowReg_arg
  · obtain ⟨r, hr⟩ := Option.ne_none_iff_exists'.mp (mt windowReg_eq_none_iff.mp hok)
    rw [hostRead_reg s hr]
  · rw [hostRead_bad s (windowReg_of_badAccess hbad), s.raiseError_halted _ he]
    exact ⟨rfl, he, rfl⟩
  · obtain ⟨t, ht⟩ := step_next s
    exact ⟨t, ht, step_halted he ht⟩

/-- Settles O41: the all-zero table is cut from the constant sequence 0, which is recurrent. -/
theorem allZeroTableIsFixed : Obligations.AllZeroTableIsFixed := by
  intro s k a htable he
  obtain ⟨t, hrun, herr, hwords, hresult⟩ :=
    runCommands_advance_wordsFrom (f := fun _ => 0) (n := 0) a (fun _ _ => add32_zero.symm) he
      (htable.trans (wordsFrom_zero 0).symm) k
  exact ⟨t, hrun, hwords.trans (wordsFrom_zero _), herr, fun hk => (hresult hk).trans out_zero⟩

/-- Settles O47, by the agent that moves. -/
theorem stepAlwaysAnswersNext : Obligations.StepAlwaysAnswersNext := step_next

/-- Settles O11: a bad access reaches no register, and raises BAD_ACCESS. -/
theorem badAccessEffect : Obligations.BadAccessEffect := by
  intro s off n v hbad
  have hnone : windowReg off n = none := windowReg_of_badAccess hbad
  rw [hostRead_bad s hnone, hostWrite_bad s v hnone]
  refine ⟨fun he => ?_, fun he => ?_⟩
  · rw [s.raiseError_first _ he]
    exact ⟨rfl, rfl⟩
  · rw [s.raiseError_halted _ he]
    exact ⟨rfl, rfl⟩

/-- Settles O27: SEED checks its operand before it writes. -/
theorem zeroSeedRefused : Obligations.ZeroSeedRefused := by
  intro s he hp
  exact engineStep_raiseError he hp ((execute_legal s decode_seed).trans (exec_seed_zero hp))

/-- Settles O46: no agent moves. -/
theorem idleHoldsState : Obligations.IdleHoldsState :=
  fun s hprogram hidle => step_idle s (mover_idle hprogram hidle)

end Sys2Proof

/-! SUPPORT. Reset, hazards, timing and the host's interface (70_reset_and_hazards.md): the RESET step (R109), the ARG
write that commutes with the completion step (R117), the port access as a window access (R123), the writers of each
register (R122), and the pending command that completes (R116, R120). -/

namespace Sys2Proof.Machine

variable {s t u : State} {op : HostOp} {rest : List HostOp}

/-! ## What is read of the spec state -/

theorem statusWord_of_sameSpecState (h : SameSpecState s t) : s.statusWord = t.statusWord := by
  obtain ⟨htable, -, -, herr, hecode, hpend⟩ := h
  simp only [State.statusWord, State.size, State.busy, htable, herr, hecode, hpend]

/-- A register reads the same on the same spec state (20_memory.md R36). -/
theorem readReg_of_sameSpecState (h : SameSpecState s t) (r : WindowReg) : s.readReg r = t.readReg r := by
  obtain ⟨-, harg, hresult, -⟩ := id h
  cases r with
  | cmd => rfl
  | arg => exact harg
  | result => exact hresult
  | status => exact statusWord_of_sameSpecState h

/-! ## Reset (R109 to R111) -/

theorem sameSpecState_hostReset (s : State) : SameSpecState s.hostReset State.reset :=
  ⟨rfl, rfl, rfl, rfl, rfl, rfl⟩

theorem hostStep_reset : hostStep .reset rest s = (s.takeOp rest).hostReset := rfl

/-! ## An ARG write and the completion step (R117) -/

/-- ARG <- v in the next state of an outcome (10_state.md R19). -/
def argWritten (v : Word) : Host.Outcome State Fault Refusal → Host.Outcome State Fault Refusal
  | .next s => .next { s with arg := v }
  | .fault f => .fault f
  | .refused r => .refused r

section argWritten

variable (s : State) (v : Word)

theorem raiseError_argWrite (code : ErrorCode) :
    { s with arg := v }.raiseError code = { s.raiseError code with arg := v } := by
  unfold State.raiseError
  split <;> rfl

/-- No command reads ARG: its operand is the captured one (10_state.md R27). -/
theorem exec_argWrite (i : Instr) : exec i { s with arg := v } = argWritten v (exec i s) := by
  cases i with
  | nop => rfl
  | advance =>
    simp only [exec, execAdvance, raiseError_argWrite]
    split <;> rfl
  | peeks =>
    simp only [exec, execPeeks, raiseError_argWrite]
    split <;> rfl
  | peeko =>
    simp only [exec, execPeeko, raiseError_argWrite]
    split <;> rfl
  | seed =>
    simp only [exec, execSeed, State.capturedArg, raiseError_argWrite]
    split
    · rfl
    · split <;> rfl
  | loadpush =>
    simp only [exec, execLoadpush, State.capturedArg]
    split <;> rfl
  | readt idx =>
    simp only [exec, execReadt, raiseError_argWrite]
    split
    · split <;> rfl
    · rfl

theorem execute_argWrite (c : Word) : execute c { s with arg := v } = argWritten v (execute c s) := by
  cases hd : decode c with
  | ok i => rw [execute_legal _ hd, execute_legal _ hd, exec_argWrite]
  | error e => rw [execute_illegal _ hd, execute_illegal _ hd, raiseError_argWrite, argWritten]

theorem retireOutcome_argWritten (o : Host.Outcome State Fault Refusal) :
    retireOutcome (argWritten v o) = argWritten v (retireOutcome o) := by
  cases o <;> rfl

theorem engineStep_argWrite : engineStep { s with arg := v } = argWritten v (engineStep s) := by
  simp only [engineStep, execute_argWrite, retireOutcome_argWritten]
  split
  · rfl
  · split <;> rfl

end argWritten

/-! ## The ports (R123) -/

theorem portWidth_eq_four_iff (size : BitVec 2) : portWidth size = 4 ↔ size = 2 := by
  revert size
  decide

/-- The bits `addr[1:0]` are 0 iff the address is a multiple of 4. -/
theorem addr_low_bits_eq_zero_iff (addr : BitVec 4) : addr.extractLsb' 0 2 = 0 ↔ addr.toNat % 4 = 0 := by
  simp [← BitVec.toNat_inj]

/-- The accesses that R123 calls bad are those of 20_memory.md R35. -/
theorem badAccess_port_iff (p : PortsIn) :
    BadAccess p.addr (portWidth p.size) ↔ p.size ≠ 2 ∨ p.addr.extractLsb' 0 2 ≠ 0 :=
  or_congr (portWidth_eq_four_iff p.size).not (addr_low_bits_eq_zero_iff p.addr).not.symm

/-- A read that is no bad access leaves the state alone (20_memory.md R36). -/
theorem hostRead_state {off : BitVec 4} {n : Nat} (h : ¬ BadAccess off n) (s : State) : (hostRead off n s).2 = s := by
  obtain ⟨r, hr⟩ := Option.ne_none_iff_exists'.mp (mt windowReg_eq_none_iff.mp h)
  rw [hostRead_reg s hr]

section ports

variable {p : PortsIn} (hrst : p.rst = false)
include hrst

theorem operation_unselected (hsel : p.sel = false) : p.operation = none := by
  simp [PortsIn.operation, hrst, hsel]

theorem operation_read (hsel : p.sel = true) (hwe : p.we = false) :
    p.operation = some (.read p.addr (portWidth p.size)) := by
  simp [PortsIn.operation, hrst, hsel, hwe]

theorem operation_write (hsel : p.sel = true) (hwe : p.we = true) :
    p.operation = some (.write p.addr (portWidth p.size) p.wdata) := by
  simp [PortsIn.operation, hrst, hsel, hwe]

end ports

theorem portsNext_of_operation {p : PortsIn} (h : p.operation = some op) (s : State) :
    portsNext p s = hostPerform op s := by
  simp only [portsNext, h]

theorem portsRdata_of_read {p : PortsIn} {off : BitVec 4} {n : Nat} (h : p.operation = some (.read off n)) (s : State) :
    portsRdata p s = some (hostRead off n s).1 := by
  simp only [portsRdata, h]

/-! ## The writers of each register (R122, 10_state.md R19, R20, R29) -/

/-- A completion step never writes ARG, nor anything of the host's side. -/
theorem engineStep_arg_hostSide (h : engineStep s = .next t) : t.arg = s.arg ∧ SameHostSide t s := by
  obtain rfl | ⟨-, p, -, ⟨i, u, -, hu, rfl⟩ | ⟨-, rfl⟩⟩ := engineStep_cases s h
  · simp [SameHostSide]
  · exact exec_arg_hostSide (t := u) hu
  · simp [SameHostSide]

theorem engineStep_table (h : engineStep s = .next t) :
    t.table = s.table ∨ ∃ p, s.pend = some p ∧
      (decode p.word = .ok .seed ∨ decode p.word = .ok .loadpush ∨ decode p.word = .ok .advance) := by
  obtain rfl | ⟨-, p, hp, ⟨i, u, hi, hu, rfl⟩ | ⟨-, rfl⟩⟩ := engineStep_cases s h
  · exact .inl rfl
  · refine (exec_table hu).imp_right fun hwriter => ⟨p, hp, ?_⟩
    obtain rfl | rfl | rfl := hwriter <;> simp [hi]
  · exact .inl (s.raiseError_table _)

theorem engineStep_result (h : engineStep s = .next t) :
    t.result = s.result ∨ ∃ p, s.pend = some p ∧
      (decode p.word = .ok .advance ∨ decode p.word = .ok .peeks ∨ decode p.word = .ok .peeko
        ∨ ∃ idx, decode p.word = .ok (.readt idx)) := by
  obtain rfl | ⟨-, p, hp, ⟨i, u, hi, hu, rfl⟩ | ⟨-, rfl⟩⟩ := engineStep_cases s h
  · exact .inl rfl
  · refine (exec_result hu).imp_right fun hwriter => ⟨p, hp, ?_⟩
    obtain rfl | rfl | rfl | ⟨idx, rfl⟩ := hwriter <;> simp [hi]
  · exact .inl (s.raiseError_result _)

theorem hostRead_arg (off : BitVec 4) (n : Nat) (s : State) : (hostRead off n s).2.arg = s.arg := by
  obtain h | h := hostRead_state_cases s off n
  · rw [h]
  · rw [h, s.raiseError_arg]

/-- No host operation but a write or RESET changes ARG. -/
theorem hostPerform_arg (hop : op ≠ .reset) (s : State) :
    (hostPerform op s).arg = s.arg ∨ (∃ off n v, op = .write off n v) ∨ ∃ a n v, op = .memWrite a n v := by
  cases op with
  | read off n => exact .inl (hostRead_arg off n s)
  | write off n v => exact .inr (.inl ⟨off, n, v, rfl⟩)
  | poll =>
    obtain ⟨-, harg, -⟩ := sameSpecState_hostPoll s
    exact .inl harg
  | reset => exact absurd rfl hop
  | memRead a n =>
    cases hw : windowOffset a with
    | none => rw [hostPerform_memRead_outside n hw]; exact .inl rfl
    | some off => rw [hostPerform_memRead_inside n hw]; exact .inl (hostRead_arg off n s)
  | memWrite a n v => exact .inr (.inr ⟨a, n, v, rfl⟩)

/-! ## A pending command completes (R120) -/

theorem completionEnabled_eq_false (hp : s.pend = none) : s.completionEnabled = false := by
  simp [State.completionEnabled, State.busy, hp]

theorem hostWrite_wait_of_busy (off : BitVec 4) (n : Nat) (v : Word) (hp : s.pend ≠ none) :
    (hostWrite off n v s).wait = s.wait := by
  obtain h | h | ⟨-, hfree, -⟩ | ⟨code, -, h⟩ := hostWrite_cases s off n v
  · rw [h]
  · rw [h]
  · exact absurd hfree hp
  · rw [h, s.raiseError_wait]

theorem hostRead_wait (off : BitVec 4) (n : Nat) (s : State) : (hostRead off n s).2.wait = s.wait := by
  obtain h | h := hostRead_state_cases s off n
  · rw [h]
  · rw [h, s.raiseError_wait]

theorem hostPoll_wait (s : State) : (hostPoll s).wait = s.wait := by
  cases hp : s.pend with
  | none => rw [hostPoll_idle s hp]; rfl
  | some p => rw [hostPoll_busy s hp]; rfl

/-- While a command is pending no host operation but RESET sets the number of host operations before its completion
step (log 3): no second command is issued (60_exceptions.md R96). -/
theorem hostPerform_wait_of_busy (hp : s.pend ≠ none) (hop : op ≠ .reset) : (hostPerform op s).wait = s.wait := by
  cases op with
  | read off n => exact hostRead_wait off n s
  | write off n v => exact hostWrite_wait_of_busy off n v hp
  | poll => exact hostPoll_wait s
  | reset => exact absurd rfl hop
  | memRead a n =>
    cases hw : windowOffset a with
    | none => rw [hostPerform_memRead_outside n hw]
    | some off => rw [hostPerform_memRead_inside n hw]; exact hostRead_wait off n s
  | memWrite a n v =>
    cases hw : windowOffset a with
    | none => rw [hostPerform_memWrite_outside n v hw]
    | some off => rw [hostPerform_memWrite_inside n v hw]; exact hostWrite_wait_of_busy off n v hp

/-- A host step discards the pending command, or brings its completion step one operation nearer. -/
theorem hostStep_discarded_or_nearer (hc : s.completionEnabled = true) :
    (hostStep op rest s).completionEnabled = false
    ∨ ((hostStep op rest s).completionEnabled = true ∧ (hostStep op rest s).wait = s.wait - 1) := by
  obtain ⟨-, p, hp⟩ := (completionEnabled_iff s).mp hc
  cases hc' : (hostStep op rest s).completionEnabled with
  | false => exact .inl rfl
  | true =>
    have hop : op ≠ .reset := by
      rintro rfl
      have hreset : (hostStep .reset rest s).completionEnabled = false := completionEnabled_eq_false rfl
      simp [hreset] at hc'
    exact .inr ⟨rfl, hostPerform_wait_of_busy (s := s.takeOp rest) (by simp [hp]) hop⟩

/-- A completion step that is due is the next step. -/
theorem mover_of_completionEnabled (hc : s.completionEnabled = true) (hdue : s.program = [] ∨ s.wait = 0) :
    s.mover = .engine := by
  obtain ⟨he, p, hp⟩ := (completionEnabled_iff s).mp hc
  exact mover_engine s he hp hdue

/-- As many steps as `wait` says bring the completion step to be the next one, or the command was discarded. -/
theorem completion_comes_within (n : Nat) (hc : s.completionEnabled = true) (hwait : s.wait = n) :
    ∃ k t, k ≤ n ∧ runSteps k s = .next t ∧ (t.mover = .engine ∨ t.completionEnabled = false) := by
  induction n generalizing s with
  | zero => exact ⟨0, s, le_rfl, rfl, .inl (mover_of_completionEnabled hc (.inr hwait))⟩
  | succ n ih =>
    cases hprogram : s.program with
    | nil => exact ⟨0, s, Nat.zero_le _, rfl, .inl (mover_of_completionEnabled hc (.inl hprogram))⟩
    | cons op rest =>
      have hstep : step s = .next (hostStep op rest s) :=
        step_host s (mover_host s hprogram (.inr (.inr (by omega))))
      obtain hdiscarded | ⟨hc', hwait'⟩ := hostStep_discarded_or_nearer (op := op) (rest := rest) hc
      · exact ⟨1, _, Nat.le_add_left 1 n, runSteps_succ s 0 hstep, .inr hdiscarded⟩
      · obtain ⟨k, t, hk, hrun, ht⟩ := ih hc' (by omega)
        exact ⟨k + 1, t, Nat.succ_le_succ hk, (runSteps_succ s k hstep).trans hrun, ht⟩

/-! ## POLL terminates (R120, 20_memory.md R43) -/

theorem completionEnabled_of_sameSpecState (h : SameSpecState t s) (hc : s.completionEnabled = true) :
    t.completionEnabled = true := by
  obtain ⟨-, -, -, herr, -, hpend⟩ := h
  simpa only [State.completionEnabled, State.busy, herr, hpend] using hc

/-- The completion step takes the same spec state to the same spec state. -/
theorem engineStep_sameSpecState {s' t' : State} (h : SameSpecState s t) (hs : engineStep s = .next s')
    (ht : engineStep t = .next t') : SameSpecState s' t' := by
  have hout : SameOutcome (.next s') (.next t') := hs ▸ ht ▸ sameOutcome_engineStep h
  cases hout with
  | next same => exact same

/-- An enabled completion step leaves no command pending (20_memory.md R42). -/
theorem engineStep_pend (hc : s.completionEnabled = true) (h : engineStep s = .next t) : t.pend = none := by
  obtain ⟨he, p, hp⟩ := (completionEnabled_iff s).mp hc
  obtain ⟨u, -, rfl⟩ := engineStep_pending he hp h
  rfl

/-- A POLL that is not the last read of it: the STATUS read is recorded, and POLL stays (30_encoding.md R56). -/
theorem step_poll_busy {n : Nat} (hc : s.completionEnabled = true) (hwait : s.wait = n + 1)
    (hprogram : s.program = .poll :: rest) :
    ∃ t, step s = .next t ∧ SameSpecState t s ∧ t.wait = n ∧ t.program = .poll :: rest
      ∧ t.reads = s.reads ++ [s.statusWord] := by
  obtain ⟨-, p, hp⟩ := (completionEnabled_iff s).mp hc
  have hstep := step_host s (mover_host s hprogram (.inr (.inr (by omega))))
  rw [hostStep_poll_busy hp] at hstep
  exact ⟨_, hstep, ⟨rfl, rfl, rfl, rfl, rfl, rfl⟩, by simp [hwait], rfl, rfl⟩

/-- With no command pending POLL is left after one read. -/
theorem step_poll_idle (hp : s.pend = none) (hprogram : s.program = .poll :: rest) :
    ∃ t, step s = .next t ∧ SameSpecState t s ∧ t.program = rest ∧ t.reads = s.reads ++ [s.statusWord] := by
  have hstep := step_host_of_idle hp hprogram
  rw [hostStep_poll_idle hp] at hstep
  exact ⟨_, hstep, sameSpecState_record _ _, rfl, rfl⟩

/-- POLL is left after `wait` reads before the completion step, and one after it. -/
theorem poll_terminates (n : Nat) (hc : s.completionEnabled = true) (hwait : s.wait = n)
    (hprogram : s.program = .poll :: rest) :
    ∃ t u, runSteps (n + 2) s = .next t ∧ engineStep s = .next u ∧ SameSpecState t u
      ∧ t.program = rest ∧ t.pend = none ∧ t.reads = s.reads ++ List.replicate n s.statusWord ++ [u.statusWord] := by
  induction n generalizing s with
  | zero =>
    obtain ⟨u, hu⟩ := engineStep_next s
    obtain ⟨-, hprogram', hreads, -⟩ := engineStep_arg_hostSide hu
    have hpend : u.pend = none := engineStep_pend hc hu
    have hstep : step s = .next u := (step_engine s (mover_of_completionEnabled hc (.inr hwait))).trans hu
    obtain ⟨t, hpoll, hsame, hrest, hread⟩ := step_poll_idle hpend (hprogram'.trans hprogram)
    refine ⟨t, u, ?_, hu, hsame, hrest, pend_of_sameSpecState hsame hpend, by simp [hread, hreads]⟩
    rw [runSteps_succ s 1 hstep, runSteps_succ u 0 hpoll, runSteps_zero]
  | succ n ih =>
    obtain ⟨s', hstep, hsame, hwait', hprogram', hread⟩ := step_poll_busy hc hwait hprogram
    obtain ⟨u, hu⟩ := engineStep_next s
    obtain ⟨t, u', hrun, hu', htu, hrest, hpend, hreads⟩ :=
      ih (completionEnabled_of_sameSpecState hsame hc) hwait' hprogram'
    have huu : SameSpecState u' u := engineStep_sameSpecState hsame hu' hu
    refine ⟨t, u, (runSteps_succ s (n + 2) hstep).trans hrun, hu, sameSpecState_trans htu huu, hrest, hpend, ?_⟩
    rw [hreads, hread, statusWord_of_sameSpecState hsame, statusWord_of_sameSpecState huu, List.replicate_succ]
    simp

/-! ## Reads before POLL (R116) -/

/-- A legal read of a register, as the host's step. -/
theorem hostStep_read {off : BitVec 4} {r : WindowReg} (hr : windowReg off 4 = some r) :
    hostStep (.read off 4) rest s = (s.takeOp rest).record (s.readReg r) := by
  have hread : hostRead off 4 (s.takeOp rest) = ((s.takeOp rest).readReg r, s.takeOp rest) := hostRead_reg _ hr
  have hvalue : (s.takeOp rest).readReg r = s.readReg r := readReg_of_sameSpecState ⟨rfl, rfl, rfl, rfl, rfl, rfl⟩ r
  rw [hostStep, hostPerform, hread, hvalue]

/-- Where no completion step is due, a read that is next records its value in one step. -/
theorem step_read {off : BitVec 4} {r : WindowReg} (hr : windowReg off 4 = some r)
    (hprogram : s.program = .read off 4 :: rest) (hn : s.pend = none ∨ s.err = true ∨ s.wait ≠ 0) :
    ∃ t, step s = .next t ∧ t.program = rest ∧ t.reads = s.reads ++ [s.readReg r] := by
  have hstep := step_host s (mover_host s hprogram hn)
  rw [hostStep_read hr] at hstep
  exact ⟨_, hstep, rfl, rfl⟩

/-- The CMD write of an idle engine issues the command with its delay (10_state.md R27; log 3). -/
theorem step_wrCmd_idle {c : Word} {d : Nat} {ds : List Nat} (he : s.err = false) (hp : s.pend = none)
    (hdelays : s.delays = d :: ds) (hprogram : s.program = wrCmd c :: rest) :
    ∃ t, step s = .next t ∧ SameSpecState t { s with pend := some ⟨c, s.arg⟩ } ∧ t.wait = d ∧ t.program = rest
      ∧ t.reads = s.reads := by
  have hstep := step_host_of_idle hp hprogram
  rw [hostStep_wrCmd_idle c he hp] at hstep
  exact ⟨_, hstep, ⟨rfl, rfl, rfl, rfl, rfl, rfl⟩, by simp [State.nextDelay, hdelays], rfl, rfl⟩

section earlyRead

variable {c : Word} {d : Nat} {ds : List Nat} {off : BitVec 4} {r : WindowReg}
  (he : s.err = false) (hp : s.pend = none) (hdelays : s.delays = d :: ds) (hr : windowReg off 4 = some r)
  (hprogram : s.program = wrCmd c :: .read off 4 :: rest)

include he hp hdelays hr hprogram

/-- A command with a delay completes after the read: the read returns what it would have returned while the command is
pending. -/
theorem early_read_before (hd : d ≠ 0) :
    ∃ t, runSteps 2 s = .next t ∧ t.program = rest
      ∧ t.reads = s.reads ++ [{ s with pend := some ⟨c, s.arg⟩ }.readReg r] := by
  obtain ⟨s', hissue, hsame, hwait, hprogram', hreads⟩ := step_wrCmd_idle he hp hdelays hprogram
  obtain ⟨t, hread, hrest, hvalue⟩ := step_read hr hprogram' (.inr (.inr (hwait ▸ hd)))
  refine ⟨t, ?_, hrest, ?_⟩
  · rw [runSteps_succ s 1 hissue, runSteps_succ s' 0 hread, runSteps_zero]
  · rw [hvalue, hreads, readReg_of_sameSpecState hsame]

/-- A command without a delay completes before the read: the read returns the value after it. -/
theorem early_read_after (hd : d = 0) (hrun : runCommand ⟨c, s.arg⟩ s = .next u) :
    ∃ t, runSteps 3 s = .next t ∧ t.program = rest ∧ t.reads = s.reads ++ [u.readReg r] := by
  obtain ⟨s', hissue, hsame, hwait, hprogram', hreads⟩ := step_wrCmd_idle he hp hdelays hprogram
  have hengine : engineStep { s with pend := some ⟨c, s.arg⟩ } = .next u := by simpa [runCommand, he] using hrun
  have hc : s'.completionEnabled = true :=
    completionEnabled_of_sameSpecState hsame ((completionEnabled_iff _).mpr ⟨he, _, rfl⟩)
  obtain ⟨u', hu'⟩ := engineStep_next s'
  have huu : SameSpecState u' u := engineStep_sameSpecState hsame hu' hengine
  have hcomplete : step s' = .next u' :=
    (step_engine s' (mover_of_completionEnabled hc (.inr (hwait.trans hd)))).trans hu'
  obtain ⟨-, hprogram'', hreads', -⟩ := engineStep_arg_hostSide hu'
  obtain ⟨t, hread, hrest, hvalue⟩ :=
    step_read hr (hprogram''.trans hprogram') (.inl (engineStep_pend hc hu'))
  refine ⟨t, ?_, hrest, ?_⟩
  · rw [runSteps_succ s 2 hissue, runSteps_succ s' 1 hcomplete, runSteps_succ u' 0 hread, runSteps_zero]
  · rw [hvalue, hreads', hreads, readReg_of_sameSpecState huu]

end earlyRead

/-! ## Latencies (R119) -/

theorem commandLatency_illegal {c : Word} (h : ¬ LegalWord c) : commandLatency c = Config.latency .latNop := by
  obtain ⟨e, he⟩ := decode_illegal h
  simp only [commandLatency, latencyName, he]

theorem commandLatency_readt {c : Word} {idx : BitVec 5} (h : decode c = .ok (.readt idx)) :
    commandLatency c = Config.latency .latReadt := by
  simp only [commandLatency, latencyName, h]

end Sys2Proof.Machine

namespace Sys2Proof

open Sys2Proof.Machine

/-- Settles O50, by induction on the number of host operations before the completion step. -/
theorem completionAlwaysComes : Obligations.CompletionAlwaysComes :=
  fun s hc => completion_comes_within s.wait hc rfl

/-- Settles O51, by induction on the number of reads before the completion step. -/
theorem pollTerminates : Obligations.PollTerminates :=
  fun s _ hc hprogram => poll_terminates s.wait hc rfl hprogram

/-- Settles O52: the delay says whether the completion step or the read comes first. -/
theorem earlyReadSeesOldOrNew : Obligations.EarlyReadSeesOldOrNew := by
  intro s u c rest d ds he hp hdelays hrun
  refine ⟨fun hprogram => ⟨fun hd => ?_, fun hd => ?_⟩, fun hprogram => ⟨fun hd => ?_, fun hd => ?_⟩⟩
  · exact early_read_after he hp hdelays windowReg_result hprogram hd hrun
  · exact early_read_before he hp hdelays windowReg_result hprogram hd
  · obtain ⟨t, hsteps, hrest, hreads⟩ := early_read_after he hp hdelays windowReg_status hprogram hd hrun
    exact ⟨t, u.statusWord, hsteps, hrest, hreads, statusWord_size u⟩
  · obtain ⟨t, hsteps, hrest, hreads⟩ := early_read_before he hp hdelays windowReg_status hprogram hd
    exact ⟨t, _, hsteps, hrest, hreads, statusWord_size _⟩

/-- Settles O20, register by register. -/
theorem writersOfEachRegister : Obligations.WritersOfEachRegister := by
  refine ⟨fun s t h => ?_, fun s op hop => ?_⟩
  · obtain ⟨harg, -⟩ := engineStep_arg_hostSide h
    refine ⟨harg, (engineStep_table h).resolve_left, (engineStep_result h).resolve_left, fun he => ?_⟩
    rw [engineStep_halted s he] at h
    exact Host.Outcome.next.inj h ▸ he
  · have effect : AccessEffect s (hostPerform op s) := accessEffect_hostPerform hop
    exact ⟨access_table effect, access_result effect, (hostPerform_arg hop s).resolve_left⟩

/-- Settles O13: no command reads or writes ARG. -/
theorem argWriteNeverReachesPending : Obligations.ArgWriteNeverReachesPending := by
  intro s v
  have hwrite (s : State) : hostWrite 0x4#4 4 v s = { s with arg := v } := hostWrite_reg s v windowReg_arg
  obtain ⟨t, ht⟩ := engineStep_next s
  refine ⟨hwrite s, t, ht, ?_⟩
  rw [hwrite s, hwrite t, engineStep_argWrite, ht, argWritten]

/-- Settles O15: the operation of the cycle is no access, a bad one, or one of 4 bytes. -/
theorem portAccess : Obligations.PortAccess := by
  intro p s hrst
  refine ⟨fun hsel => ?_, fun hsel hbad => ?_, fun hsel hsize haddr => ?_⟩
  · simp only [portsNext, operation_unselected hrst hsel]
  · have hnone : windowReg p.addr (portWidth p.size) = none := windowReg_of_badAccess ((badAccess_port_iff p).mpr hbad)
    cases hwe : p.we with
    | true =>
      rw [portsNext_of_operation (operation_write hrst hsel hwe)]
      exact ⟨sameSpecState_of_eq (hostWrite_bad s _ hnone), by simp⟩
    | false =>
      have hop := operation_read hrst hsel hwe
      rw [portsNext_of_operation hop, portsRdata_of_read hop, hostPerform, hostRead_bad s hnone]
      exact ⟨sameSpecState_record _ _, fun _ => rfl⟩
  · have hwidth : portWidth p.size = 4 := (portWidth_eq_four_iff p.size).mpr hsize
    have hok : ¬ BadAccess p.addr 4 := by
      rw [← hwidth, badAccess_port_iff]
      simp [hsize, haddr]
    refine ⟨fun hwe => ?_, fun hwe => ?_⟩
    · rw [portsNext_of_operation (operation_write hrst hsel hwe), hwidth, hostPerform]
    · have hop := operation_read hrst hsel hwe
      rw [hwidth] at hop
      rw [portsNext_of_operation hop, portsRdata_of_read hop, hostPerform, hostRead_state hok]
      exact ⟨sameSpecState_record _ _, rfl⟩

/-- Settles O7: no completion step is due, so the host moves, and its RESET is `hostReset`. -/
theorem resetAtAnyTime : Obligations.ResetAtAnyTime := by
  intro s rest hprogram hn
  have hstep := step_host s (mover_host s hprogram hn)
  rw [hostStep_reset] at hstep
  exact ⟨_, hstep, sameSpecState_hostReset _, rfl, rfl⟩

/-- Settles O6: the status word is a function of the spec state, and 0 at its reset values. -/
theorem resetValues : Obligations.ResetValues := by
  have hstatus : State.reset.statusWord = 0 := by decide
  refine ⟨⟨rfl, rfl, rfl, rfl, rfl, rfl, rfl, rfl, hstatus, rfl⟩, fun s => ?_⟩
  have hsame : SameSpecState s.hostReset State.reset := sameSpecState_hostReset s
  exact ⟨hsame, (statusWord_of_sameSpecState hsame).trans hstatus⟩

/-- Settles O48, value by value. -/
theorem resetIsConsistent : Obligations.ResetIsConsistent :=
  ⟨Nat.zero_le 31, ⟨fun _ => rfl, fun _ => rfl⟩, fun _ => rfl⟩

/-- Settles O55, word by word. -/
theorem latencyParameters : Obligations.LatencyParameters :=
  ⟨fun _ => Nat.le_add_left 1 _, fun _ => commandLatency_illegal, rfl, rfl, rfl, rfl, rfl, rfl,
    fun _ hj => commandLatency_readt (decode_readt_word (Nat.lt_succ_of_le hj))⟩

end Sys2Proof

/-! PROOFS. The obligations on the decoder and the encoder of 30_encoding.md, from `decode_encode` and
`decode_eq_ok_iff`. -/

namespace Sys2Proof

/-- Settles O2, from the fields of an encoded command, READT's index apart from the commands without one. -/
theorem decodeOfEncode : Obligations.DecodeOfEncode :=
  fun _ hwf => decode_encode hwf

/-- Settles O3: a word that decodes has the operation code and index of its command and RSV = 0, and these three fields
fix the word. -/
theorem encodeOfDecode : Obligations.EncodeOfDecode :=
  fun _ _ hdecode => decode_eq_ok_iff.mp hdecode

/-- Settles O1: nine legal words, then five that are refused, each by evaluation of the decoder. -/
theorem listedWordsDecode : Obligations.ListedWordsDecode :=
  ⟨rfl, rfl, rfl, rfl, rfl, rfl, rfl, rfl, rfl, rfl, rfl, rfl, rfl, rfl⟩

end Sys2Proof
